-- ==== Sys2Proof/Word.lean ====
section
/-! DEFINITION. The two widths of the block's data: 64-bit registers, lanes and command words, and bytes
(00_scope.md R4 row LANE_W, R6 to R8). Everything is unsigned. -/

namespace Sys2Proof

/-- A 64-bit value: a lane, a register of the host port or a command word (R4, R20). -/
abbrev Word := BitVec 64

/-- A byte, the host port's smallest addressable unit (R50). -/
abbrev Byte := BitVec 8

end Sys2Proof
end

