-- ==== Sys2Proof/Config.lean ====
section
/-! DEFINITION. What an implementation fixes (the OPEN parameters of 00_scope.md R4) and the free values: what the
spec calls "any value" is a constant with no body, so no proof can see what it is. -/

namespace Sys2Proof

/-- The OPEN parameters of R4. They are configuration, not state (R20); `State` carries them because a step is given
nothing else, and no step changes them. DESIGN CHOICE: log entry 2. -/
structure Config.Params where
  /-- `VBUF_BYTES`, the size of the varint buffer, 1 to 32768 (R4, D27). -/
  vbufBytes : Nat
  /-- `BLOCK_BASE`, where the 64 KiB host port lies in the host's address space, a multiple of 0x10000 (R4, R50). -/
  blockBase : Nat
  deriving DecidableEq, Repr

/-- The ranges R4 allows the parameters. -/
abbrev Config.Params.wf (p : Config.Params) : Prop :=
  1 ≤ p.vbufBytes ∧ p.vbufBytes ≤ 32768 ∧ p.blockBase % 0x10000 = 0

/-- The parameters `State.reset` holds: the spec's recommended `VBUF_BYTES` (R4) and base 0. DESIGN CHOICE: log
entry 2. -/
def Config.recommended : Config.Params := { vbufBytes := 4096, blockBase := 0 }

/-- FREE VALUE: the byte that `MB` or `VBUF` holds after a reset at a host-port offset nothing has written since: one
draw per reset and byte (10_state.md R43, R232, U1, U2). First argument: which reset; second: the offset. Log entry 3. -/
opaque Config.drawnByte : Nat → Nat → Byte

/-- FREE VALUE: the value a read draws where the spec says it "returns any value" (R53, R58, R230, U4 to U6). The
argument counts the draws, so that each read has a fresh one. Log entry 5. -/
opaque Config.drawnRead : Nat → Word

end Sys2Proof
end

