-- ==== Sys2Proof/Syntax.lean ====
section
/-! DEFINITION. The commands of the block: one constructor per row of spec/opcode_table.json (30_encoding.md R82). -/

namespace Sys2Proof

/-- A decoded command word (R82). `LEN` is the only operand any command has (R83). -/
inductive Instr where
  /-- `NOP` (43_system.md R190). -/
  | nop
  /-- `KECCAK_INIT` (42_keccak_sponge.md R160). -/
  | keccakInit
  /-- `KECCAK_PERM` (41_keccak_permutation.md R140). -/
  | keccakPerm
  /-- `KECCAK_ABSORB` (42_keccak_sponge.md R163). -/
  | keccakAbsorb
  /-- `KECCAK_ABSORB_FINAL t`, with `LEN` = t, the tail length in bytes (42_keccak_sponge.md R164). -/
  | keccakAbsorbFinal (len : Byte)
  /-- `KECCAK_SQUEEZE` (42_keccak_sponge.md R166). -/
  | keccakSqueeze
  /-- `VARINT_UNPACK` (40_varint.md R102). -/
  | varintUnpack
  /-- `VARINT_SIZE` (40_varint.md R108). -/
  | varintSize
  deriving DecidableEq, Repr

end Sys2Proof
end

