-- ==== Sys2Proof/WellFormed.lean ====
section
/-! DEFINITION. Which terms of `Instr` are commands of the block: the field constraints of 30_encoding.md R82. -/

namespace Sys2Proof

/-- The field constraint of R82, R83: the tail length of `KECCAK_ABSORB_FINAL` is 0 to `RATE_BYTES` - 1 = 135. -/
def Instr.wellFormed : Instr → Bool
  | .nop => true
  | .keccakInit => true
  | .keccakPerm => true
  | .keccakAbsorb => true
  | .keccakAbsorbFinal len => decide (len.toNat ≤ 135)
  | .keccakSqueeze => true
  | .varintUnpack => true
  | .varintSize => true

end Sys2Proof
end

