-- ==== Sys2Proof/Decode.lean ====
section
/-! DEFINITION. The byte order of the block (00_scope.md R8, 20_memory.md R52), the decoder of CMD64 words, total, each
illegal word rejected by name (30_encoding.md R85, R86), and the encoder (R82). -/

namespace Sys2Proof

/-- `Byte(v, k)` of R8: bits 8k+7 to 8k of `v`. -/
def wordByte (v : Word) (k : Nat) : Byte := v.extractLsb' (8 * k) 8

/-- The little-endian composition of the `n` bytes `b 0` to `b (n-1)`, `b 0` least significant (R8, R52); bytes past
the eighth are lost. -/
def leCompose (b : Nat → Byte) : Nat → Word
  | 0 => 0
  | n + 1 => leCompose b n ||| ((b n).setWidth 64 <<< (8 * n))

/-- `LE64(b0, ..., b7)` of R8. -/
def le64 (b : Nat → Byte) : Word := leCompose b 8

/-- Why a word is no command: the checks of R85, in its order, and a byte string too short to hold a CMD64 word. -/
inductive DecodeError where
  /-- `RSVD0` or `RSVD1` is not 0. -/
  | reservedBits
  /-- The opcode is 0x06 to 0x0F or 0x12 to 0xFF (R86). -/
  | reservedOpcode
  /-- `LEN` is not 0 and the opcode is not 0x04. -/
  | lenNotZero
  /-- `KECCAK_ABSORB_FINAL` with `LEN` 136 to 255. -/
  | lenTooLarge
  /-- Fewer than the 8 bytes of R80. -/
  | tooFewBytes
  deriving DecidableEq, Repr

/-- Field `OP` of R81. -/
def opField (w : Word) : Byte := w.extractLsb' 0 8

/-- Field `LEN` of R81. -/
def lenField (w : Word) : Byte := w.extractLsb' 8 8

/-- Fields `RSVD1` and `RSVD0` of R81, together. -/
def reservedField (w : Word) : BitVec 48 := w.extractLsb' 16 48

/-- The opcode map of R82; `none` for a reserved opcode. -/
def instrOf? (op len : Byte) : Option Instr :=
  if op = 0x00 then some .nop
  else if op = 0x01 then some .keccakInit
  else if op = 0x02 then some .keccakPerm
  else if op = 0x03 then some .keccakAbsorb
  else if op = 0x04 then some (.keccakAbsorbFinal len)
  else if op = 0x05 then some .keccakSqueeze
  else if op = 0x10 then some .varintUnpack
  else if op = 0x11 then some .varintSize
  else none

/-- The engine's decoding of a word, the checks of R85 in its order. -/
def decode (w : Word) : Except DecodeError Instr :=
  if reservedField w ≠ 0 then .error .reservedBits
  else match instrOf? (opField w) (lenField w) with
    | none => .error .reservedOpcode
    | some i =>
      if opField w ≠ 0x04 ∧ lenField w ≠ 0 then .error .lenNotZero
      else if opField w = 0x04 ∧ 135 < (lenField w).toNat then .error .lenTooLarge
      else .ok i

/-- The bytes of a word, lowest offset first (R52). -/
def wordBytes (w : Word) : List Byte := (List.range 8).map (wordByte w)

/-- Decoding from bytes laid out as the host port lays out `CMD` (R52, R80): one word, and the bytes after it. -/
def decodeBytes : List Byte → Except DecodeError (Instr × List Byte)
  | b0 :: b1 :: b2 :: b3 :: b4 :: b5 :: b6 :: b7 :: rest =>
    match decode (le64 fun k => [b0, b1, b2, b3, b4, b5, b6, b7].getD k 0) with
    | .ok i => .ok (i, rest)
    | .error e => .error e
  | _ => .error .tooFewBytes

/-- The command word of an instruction (R82): the words R82 writes out. -/
def encode : Instr → Word
  | .nop => 0x0000000000000000
  | .keccakInit => 0x0000000000000001
  | .keccakPerm => 0x0000000000000002
  | .keccakAbsorb => 0x0000000000000003
  | .keccakAbsorbFinal len => 0x0000000000000004 + len.setWidth 64 * 0x100
  | .keccakSqueeze => 0x0000000000000005
  | .varintUnpack => 0x0000000000000010
  | .varintSize => 0x0000000000000011

/-- The word of a row of the opcode table: `w`'s low `nbits` bits, the bits above them 0. -/
def tableWord (nbits w : Nat) : Word := BitVec.ofNat 64 (w % 2 ^ nbits)

/-- The instruction this decoder reads from the bytes of a word given as the opcode table numbers its bits. A CMD64
word has 64 bits (R80), so a longer one is none. -/
def decodeTableWord (nbits w : Nat) : Option Instr :=
  if nbits ≤ 64 then
    match decodeBytes (wordBytes (tableWord nbits w)) with
    | .ok (i, _) => some i
    | .error _ => none
  else none

end Sys2Proof
end

