-- ==== Sys2Proof/Machine/State.lean ====
section
/-! DEFINITION. The state of the block as plain data (10_state.md R20, R34, R40, R43), the moves of its environment,
the reasons a step can stop, and the state after reset. -/

namespace Sys2Proof.Machine

/-- The Keccak state `S`: 25 lanes (10_state.md R22). -/
abbrev Lanes := Vector Word 25

/-- The bytes of `MB` and `VBUF` written since the last reset, keyed by host-port offset (20_memory.md R50, R51). A
byte that is not listed holds its reset draw. Log entries 3 and 4. -/
abbrev Memory := List Host.Cell

/-- The canonical form: offsets strictly rising, so that equal sets of written bytes are equal data. An unlisted byte
has no known value (it is a draw), so no entry equals what an unlisted byte reads as. Log entry 4. -/
abbrev Memory.wf (m : Memory) : Prop := m.Pairwise fun c d => c.1 < d.1

/-- The names of the outcome codes of 60_exceptions.md R201. -/
inductive ErrCode where
  /-- OK, 0x00. -/
  | ok
  /-- 0x01, reserved: never raised by the block. -/
  | unexpectedEndOfData
  /-- 0x02, raised by `VARINT_UNPACK`. -/
  | malformedVarint
  /-- 0x03, reserved: never raised by the block. -/
  | arrayTooLarge
  /-- 0x04, reserved: never raised by the block. -/
  | unsupportedVersion
  /-- 0x10, raised by a malformed command word. -/
  | illegalCommand
  deriving DecidableEq, Repr

/-- A statement of a host script (30_encoding.md R87, R88). Addresses are host addresses: `BLOCK_BASE` plus an
offset. A command mnemonic is a `wr` of its word to `CMD`. -/
inductive HostStmt where
  /-- `rd`: an `n`-byte read. -/
  | rd (addr n : Nat)
  /-- `wr`: an `n`-byte write of `v`. -/
  | wr (addr n : Nat) (v : Word)
  /-- `wait`: read `STATUS` until `BUSY` is 0. -/
  | wait
  deriving DecidableEq, Repr

/-- Which agent makes the next move: steps of host and engine happen one at a time in one order that the spec leaves
open (60_exceptions.md R200, 20_memory.md R62), and the platform drives reset at any time (R230). -/
inductive Turn where
  /-- The host performs its next statement. -/
  | host
  /-- The engine performs the pending command. -/
  | engine
  /-- The platform asserts the reset input. -/
  | assertReset
  /-- The platform releases the reset input. -/
  | releaseReset
  deriving DecidableEq, Repr

/-- The state of the block and of what drives it. -/
structure State where
  /-- `S[0..24]` (R22). -/
  lanes : Lanes
  /-- The written bytes of `MB[0..135]`, at offsets 0x0200 on (R24), and of `VBUF`, at offsets 0x8000 on (R26). -/
  mem : Memory
  /-- `D[0..31]` (R25). -/
  digest : Vector Byte 32
  /-- `VLEN`, the length of the decode input (R27). -/
  vlen : Word
  /-- `VOFF`, the cursor (R28). -/
  voff : Word
  /-- `VVAL`, the last decoded value (R29). -/
  vval : Word
  /-- `VCNT`, the bytes the last successful decode consumed (R30). -/
  vcnt : Word
  /-- `VIN`, the magnitude `VARINT_SIZE` reads (R31). -/
  vin : Word
  /-- `VSIZE`, the last packed size (R32). -/
  vsize : Word
  /-- `CMD`, the last accepted word (R33). -/
  cmd : Word
  /-- `STATUS.DONE` (R36). -/
  done : Bool
  /-- `STATUS.HERR` (R38). -/
  herr : Bool
  /-- `STATUS.ERR` (R39). -/
  err : ErrCode
  /-- `PEND` with its valid bit, which is `STATUS.BUSY` (R40). -/
  pend : Option Word
  /-- The reset input is asserted (R230). -/
  inReset : Bool
  /-- The implementation's parameters (R4). No step changes them. -/
  cfg : Config.Params
  /-- The model's own: which draw of `MB` and `VBUF` stands. Log entry 3. -/
  resetDraw : Nat
  /-- The model's own: how many free values reads have drawn. Log entry 5. -/
  draws : Nat
  /-- The model's own: the host statements still to be performed (R247). Log entry 1. -/
  script : List HostStmt
  /-- The model's own: whose move is next; with none listed, `State.nextTurn` says. Log entry 1. -/
  turns : List Turn
  /-- The model's own: what `rd` statements returned so far, oldest first (R247). Log entry 1. -/
  results : List Word
  deriving DecidableEq, Repr

/-- Why a step stops with a fault. -/
inductive Fault where
  /-- Raised by `VARINT_UNPACK` when `VLEN` is above `VBUF_BYTES`, so that the decode input is not inside the buffer's
  storage. R27 makes such a `VLEN` illegal and no run reaches it (R59 refuses the write). Safe. Log entry 8. -/
  | decodeInputOutsideVbuf
  deriving DecidableEq, Repr

/-- Why a step is refused. -/
inductive Refusal where
  /-- Raised by an arm of `exec` whose instruction has no meaning yet; no arm raises it. Safe. -/
  | notModelled (mnemonic : String)
  deriving DecidableEq, Repr

/-- The state in which the block leaves reset: every field at the value of 10_state.md R43; `MB` and `VBUF` hold their
draw. The configuration and the model's own fields: log entries 1, 2, 3 and 5. -/
def State.reset : State where
  lanes := Vector.replicate 25 0
  mem := []
  digest := Vector.replicate 32 0
  vlen := 0
  voff := 0
  vval := 0
  vcnt := 0
  vin := 0
  vsize := 0
  cmd := 0
  done := false
  herr := false
  err := .ok
  pend := none
  inReset := false
  cfg := Config.recommended
  resetDraw := 0
  draws := 0
  script := []
  turns := []
  results := []

end Sys2Proof.Machine
end

