-- ==== Sys2Proof/Machine/Ops.lean ====
section
/-! DEFINITION. The named operations over memory, registers and command completion that every meaning and every host
access goes through. -/

namespace Sys2Proof.Machine

/-- The byte listed at offset `a`, if one is. -/
def Memory.look : Memory → Nat → Option Byte
  | [], _ => none
  | (b, v) :: m, a => if a = b then some v else Memory.look m a

/-- Store a byte, keeping the offsets rising. -/
def Memory.store : Memory → Nat → Byte → Memory
  | [], a, v => [(a, v)]
  | (b, w) :: m, a, v =>
    if a < b then (a, v) :: (b, w) :: m
    else if a = b then (a, v) :: m
    else (b, w) :: Memory.store m a v

/-- Store the low `n` bytes of `v` at `a` to `a + n - 1`, little-endian (20_memory.md R52, R54). -/
def Memory.storeBytes (m : Memory) (a : Nat) (v : Word) : Nat → Memory
  | 0 => m
  | n + 1 => (Memory.storeBytes m a v n).store (a + n) (wordByte v n)

/-- The byte of `MB` or `VBUF` at host-port offset `a`: what was last written there, else its reset draw (10_state.md
R43, 70_reset_and_hazards.md R232). -/
def State.readByte (s : State) (a : Nat) : Byte :=
  (s.mem.look a).getD (Config.drawnByte s.resetDraw a)

/-- `MB[i]` (10_state.md R24). -/
def State.mbByte (s : State) (i : Nat) : Byte := s.readByte (0x0200 + i)

/-- `VBUF[i]` (10_state.md R26). -/
def State.vbufByte (s : State) (i : Nat) : Byte := s.readByte (0x8000 + i)

/-- `v` with byte `k` (0 to 7) replaced by `b`. -/
def setWordByte (v : Word) (k : Nat) (b : Byte) : Word :=
  (v &&& ~~~((0xFF : Word) <<< (8 * k))) ||| (b.setWidth 64 <<< (8 * k))

/-- Byte `k` of the window onto `S`: `Byte(S[k div 8], k mod 8)` (10_state.md R23). -/
def laneByte (A : Lanes) (k : Nat) : Byte := if h : k / 8 < 25 then wordByte A[k / 8] (k % 8) else 0

/-- `D[i]` (10_state.md R25). -/
def State.digestByte (s : State) (i : Nat) : Byte := if h : i < 32 then s.digest[i] else 0

/-- Replace byte `k` of the window onto `S` (10_state.md R23). -/
def setLaneByte (A : Lanes) (k : Nat) (b : Byte) : Lanes :=
  if h : k / 8 < 25 then A.set (k / 8) (setWordByte A[k / 8] (k % 8) b) else A

/-- Replace bytes `k` to `k + n - 1` of the window onto `S` by the low `n` bytes of `v`, little-endian. -/
def setLaneBytes (A : Lanes) (k : Nat) (v : Word) : Nat → Lanes
  | 0 => A
  | n + 1 => setLaneByte (setLaneBytes A k v n) (k + n) (wordByte v n)

/-- `STATUS.BUSY`: `PEND` is valid (10_state.md R35, R40). -/
def State.busy (s : State) : Bool := s.pend.isSome

/-- A host write of `w` to `CMD` is accepted (10_state.md R40). -/
def State.acceptCommand (s : State) (w : Word) : State :=
  { s with cmd := w, pend := some w, done := false, err := .ok }

/-- The end of the engine step of 60_exceptions.md R200, with the command's outcome code. -/
def State.finish (s : State) (code : ErrCode) : State :=
  { s with err := code, done := true, pend := none }

/-- `complete()` (60_exceptions.md R203). -/
def State.complete (s : State) : State := s.finish .ok

/-- `raise <Error>()`: the command ends with the error's code and no other effect (60_exceptions.md R202, R204). This
is the block's only way to take an exception: there is no trap (R208). -/
def State.raise (s : State) (e : ErrCode) : State := s.finish e

/-- A refused host access: `HERR` is set and nothing else (20_memory.md R59, 60_exceptions.md R206). -/
def State.refuseAccess (s : State) : State := { s with herr := true }

/-- The reset input is asserted (70_reset_and_hazards.md R230): the pending command is discarded and every piece of
state takes its reset value, `MB` and `VBUF` a new draw. What is not the block's own state stays. Log entry 6. -/
def State.assertReset (s : State) : State :=
  { State.reset with
    inReset := true
    cfg := s.cfg
    resetDraw := s.resetDraw + 1
    draws := s.draws
    script := s.script
    turns := s.turns
    results := s.results }

/-- The reset input is released (70_reset_and_hazards.md R230). -/
def State.releaseReset (s : State) : State := { s with inReset := false }

/-- The free value the next read draws, of `n` bytes (20_memory.md R53, R58). -/
def State.drawnValue (s : State) (n : Nat) : Word := leCompose (wordByte (Config.drawnRead s.draws)) n

/-- The state after a read has drawn a free value. -/
def State.drew (s : State) : State := { s with draws := s.draws + 1 }

end Sys2Proof.Machine
end

