-- ==== Sys2Proof/Machine/Flags.lean ====
section
/-! DEFINITION. The `STATUS` register: its fields, its live `EOF` bit and the word a host read sees (10_state.md R34 to
R39, R42), with the outcome codes of 60_exceptions.md R201. -/

namespace Sys2Proof.Machine

/-- The code of an outcome (60_exceptions.md R201). -/
def ErrCode.code : ErrCode → Byte
  | .ok => 0x00
  | .unexpectedEndOfData => 0x01
  | .malformedVarint => 0x02
  | .arrayTooLarge => 0x03
  | .unsupportedVersion => 0x04
  | .illegalCommand => 0x10

/-- The codes the block raises; the others are reserved and never appear (10_state.md R34, 60_exceptions.md R201). -/
def ErrCode.raised : ErrCode → Bool
  | .ok => true
  | .unexpectedEndOfData => false
  | .malformedVarint => true
  | .arrayTooLarge => false
  | .unsupportedVersion => false
  | .illegalCommand => true

/-- `STATUS.EOF`, evaluated at a read: `VOFF = VLEN` (10_state.md R37). -/
def State.eof (s : State) : Bool := s.voff = s.vlen

/-- The `STATUS` word with a given `EOF` bit: bit 0 `BUSY`, 1 `DONE`, 2 `EOF`, 3 `HERR`, 15:8 `ERR`, the rest 0
(10_state.md R34). -/
def State.statusWith (s : State) (eof : Bool) : Word :=
  0#48 ++ s.err.code ++ 0#4 ++ BitVec.ofBool s.herr ++ BitVec.ofBool eof ++ BitVec.ofBool s.done
    ++ BitVec.ofBool s.busy

/-- The `STATUS` word while no command is pending (10_state.md R34). -/
def State.statusWord (s : State) : Word := s.statusWith s.eof

end Sys2Proof.Machine
end

