-- ==== Sys2Proof/Machine/Operands.lean ====
section
/-! DEFINITION. The operand forms of the commands: the tail length `LEN` (30_encoding.md R83), a message block and its
lanes (42_keccak_sponge.md R162), and the padded final block (R165). A block is given by its bytes `P 0` to `P 135`. -/

namespace Sys2Proof.Machine

/-- `LEN` as a tail length: unsigned, not scaled (30_encoding.md R83). -/
def tailLength (len : Byte) : Nat := len.toNat

/-- The block KECCAK_ABSORB reads: `MB[0..135]` (42_keccak_sponge.md R163). -/
def State.messageBlock (s : State) : Nat → Byte := s.mbByte

/-- Byte `j` of `pad(tail, t)` (42_keccak_sponge.md R165). -/
def padByte (tail : Nat → Byte) (t j : Nat) : Byte :=
  let p : Byte := if j < t then tail j else if j = t then 0x01 else 0x00
  if j = 135 then p ||| 0x80 else p

/-- The block KECCAK_ABSORB_FINAL reads: `pad(MB[0..t-1], t)` (42_keccak_sponge.md R164). -/
def State.finalBlock (s : State) (t : Nat) : Nat → Byte := padByte s.mbByte t

/-- Lane `i` of a block: `LE64(P[8i], ..., P[8i+7])` (42_keccak_sponge.md R162). -/
def blockLane (P : Nat → Byte) (i : Nat) : Word := le64 fun k => P (8 * i + k)

end Sys2Proof.Machine
end

