-- ==== Sys2Proof/Machine/Keccak.lean ====
section
/-! DEFINITION. The Keccak-f[1600] permutation, step by step, and KECCAK_PERM (41_keccak_permutation.md). Coordinates
are `Fin 5`, so their arithmetic is modulo 5 (R130). The spec marks the equations and tables as general knowledge: log
entry 13. -/

namespace Sys2Proof.Machine

/-- `ROTL64(a, n)` for 0 ≤ n ≤ 63 (00_scope.md R7). -/
def rotl64 (a : Word) (n : Nat) : Word := if n = 0 then a else (a <<< n) ||| (a >>> (64 - n))

/-- `A[x, y] = S[x + 5*y]` (R130). -/
def lane (A : Lanes) (x y : Fin 5) : Word := A[x.val + 5 * y.val]

/-- Five words, one per column. -/
def ofColumn (f : Fin 5 → Word) : Vector Word 5 := #v[f 0, f 1, f 2, f 3, f 4]

/-- The 25 lanes from their coordinates, in the lane order of R130. -/
def ofColumnRow (f : Fin 5 → Fin 5 → Word) : Lanes :=
  #v[f 0 0, f 1 0, f 2 0, f 3 0, f 4 0,
     f 0 1, f 1 1, f 2 1, f 3 1, f 4 1,
     f 0 2, f 1 2, f 2 2, f 3 2, f 4 2,
     f 0 3, f 1 3, f 2 3, f 3 3, f 4 3,
     f 0 4, f 1 4, f 2 4, f 3 4, f 4 4]

/-- `C` of theta (R132): the parity of each column. -/
def thetaC (A : Lanes) : Vector Word 5 :=
  ofColumn fun x => lane A x 0 ^^^ lane A x 1 ^^^ lane A x 2 ^^^ lane A x 3 ^^^ lane A x 4

/-- `D` of theta (R132), from `C`. -/
def thetaD (C : Vector Word 5) : Vector Word 5 :=
  ofColumn fun x => C[x - 1] ^^^ rotl64 C[x + 1] 1

/-- `A'[x,y] = A[x,y] ^ D[x]` (R132). -/
def thetaXor (A : Lanes) (D : Vector Word 5) : Lanes := ofColumnRow fun x y => lane A x y ^^^ D[x]

/-- theta (R132). -/
def theta (A : Lanes) : Lanes := thetaXor A (thetaD (thetaC A))

/-- The rotation offsets, rows by y and columns by x (R135). -/
def rhoTable : Vector (Vector Nat 5) 5 :=
  #v[#v[0, 1, 62, 28, 27],
     #v[36, 44, 6, 55, 20],
     #v[3, 10, 43, 25, 39],
     #v[41, 45, 15, 21, 8],
     #v[18, 2, 61, 56, 14]]

/-- `RHO[x, y]` (R135). -/
def rhoOffset (x y : Fin 5) : Nat := rhoTable[y][x]

/-- rho+pi (R133), written by destination: lane (u, v) of `B` comes from the column `x` and row `u` with
`(2*x + 3*u) mod 5 = v`, which is `x = (u + 3*v) mod 5`. -/
def rhoPi (A : Lanes) : Lanes := ofColumnRow fun u v => rotl64 (lane A (u + 3 * v) u) (rhoOffset (u + 3 * v) u)

/-- chi (R136). -/
def chi (B : Lanes) : Lanes := ofColumnRow fun x y => lane B x y ^^^ (~~~(lane B (x + 1) y) &&& lane B (x + 2) y)

/-- The rows of the table of R137: row `r`, 0 to 11, holds `RC[r]` and `RC[r + 12]`. -/
def roundConstantRows : List (Word × Word) :=
  [(0x0000000000000001, 0x000000008000808B),
   (0x0000000000008082, 0x800000000000008B),
   (0x800000000000808A, 0x8000000000008089),
   (0x8000000080008000, 0x8000000000008003),
   (0x000000000000808B, 0x8000000000008002),
   (0x0000000080000001, 0x8000000000000080),
   (0x8000000080008081, 0x000000000000800A),
   (0x8000000000008009, 0x800000008000000A),
   (0x000000000000008A, 0x8000000080008081),
   (0x0000000000000088, 0x8000000000008080),
   (0x0000000080008009, 0x0000000080000001),
   (0x000000008000000A, 0x8000000080008008)]

/-- The round constants `RC[0]` to `RC[23]`: the left column of the table, then the right one (R137). -/
def roundConstants : List Word := roundConstantRows.map Prod.fst ++ roundConstantRows.map Prod.snd

/-- iota with a round constant (R138). -/
def iota (A : Lanes) (rc : Word) : Lanes := A.set 0 (A[0] ^^^ rc)

/-- One round with a round constant (R131). -/
def keccakRound (A : Lanes) (rc : Word) : Lanes := iota (chi (rhoPi (theta A))) rc

/-- `keccak_f`: 24 rounds, r = 0 to 23 in order (R131). Not unfolded unless asked to: comparing two states must not run
the permutation. -/
@[irreducible] def keccakF (A : Lanes) : Lanes := roundConstants.foldl keccakRound A

/-- KECCAK_PERM (R140). -/
def execKeccakPerm (s : State) : Host.Outcome State Fault Refusal :=
  .next { s with lanes := keccakF s.lanes }.complete

end Sys2Proof.Machine
end

