-- ==== Sys2Proof/Machine/Sponge.lean ====
section
/-! DEFINITION. The sponge commands (42_keccak_sponge.md): KECCAK_INIT, KECCAK_ABSORB, KECCAK_ABSORB_FINAL and
KECCAK_SQUEEZE. -/

namespace Sys2Proof.Machine

/-- XOR the 17 lanes of a block into `S[0]` to `S[16]`; the capacity lanes stay (R161, R162). -/
def xorBlock (A : Lanes) (P : Nat → Byte) : Lanes :=
  #v[A[0] ^^^ blockLane P 0, A[1] ^^^ blockLane P 1, A[2] ^^^ blockLane P 2, A[3] ^^^ blockLane P 3,
     A[4] ^^^ blockLane P 4, A[5] ^^^ blockLane P 5, A[6] ^^^ blockLane P 6, A[7] ^^^ blockLane P 7,
     A[8] ^^^ blockLane P 8, A[9] ^^^ blockLane P 9, A[10] ^^^ blockLane P 10, A[11] ^^^ blockLane P 11,
     A[12] ^^^ blockLane P 12, A[13] ^^^ blockLane P 13, A[14] ^^^ blockLane P 14, A[15] ^^^ blockLane P 15,
     A[16] ^^^ blockLane P 16,
     A[17], A[18], A[19], A[20], A[21], A[22], A[23], A[24]]

/-- Absorb a block: XOR it in, then permute (R163, R164). -/
def absorbBlock (A : Lanes) (P : Nat → Byte) : Lanes := keccakF (xorBlock A P)

/-- The 32 bytes a squeeze reads: `D[j] = Byte(S[j div 8], j mod 8)` (R166). Not unfolded unless asked to. -/
@[irreducible] def squeezeBytes (A : Lanes) : Vector Byte 32 := Vector.ofFn fun j => laneByte A j.val

/-- KECCAK_INIT (R160). -/
def execKeccakInit (s : State) : Host.Outcome State Fault Refusal :=
  .next { s with lanes := Vector.replicate 25 0 }.complete

/-- KECCAK_ABSORB (R163). -/
def execKeccakAbsorb (s : State) : Host.Outcome State Fault Refusal :=
  .next { s with lanes := absorbBlock s.lanes s.messageBlock }.complete

/-- KECCAK_ABSORB_FINAL t (R164). A tail length above 135 is an illegal command (R85, R164); the decoder lets none
through. Log entry 9. -/
def execKeccakAbsorbFinal (len : Byte) (s : State) : Host.Outcome State Fault Refusal :=
  if tailLength len ≤ 135 then
    .next { s with lanes := absorbBlock s.lanes (s.finalBlock (tailLength len)) }.complete
  else .next (s.raise .illegalCommand)

/-- KECCAK_SQUEEZE (R166). -/
def execKeccakSqueeze (s : State) : Host.Outcome State Fault Refusal :=
  .next { s with digest := squeezeBytes s.lanes }.complete

end Sys2Proof.Machine
end

