-- ==== Sys2Proof/Machine/System.lean ====
section
/-! DEFINITION. The system command (43_system.md). -/

namespace Sys2Proof.Machine

/-- NOP (R190): clears `HERR`. -/
def execNop (s : State) : Host.Outcome State Fault Refusal :=
  .next { s with herr := false }.complete

end Sys2Proof.Machine
end

