-- ==== Sys2Proof/Machine/Varint.lean ====
section
/-! DEFINITION. The varint unit (40_varint.md): the decode function and VARINT_UNPACK, the packed-size function and
VARINT_SIZE. -/

namespace Sys2Proof.Machine

/-- What `varint_decode` answers (R101). -/
inductive VarintResult where
  /-- `Ok(value, count)`. -/
  | ok (value : Word) (count : Nat)
  /-- `Err(MalformedVarint)`. -/
  | malformed
  deriving DecidableEq, Repr

/-- The worth of byte `b` at index `i`: its low 7 bits shifted by `7*i` (R100, R101). -/
def groupWorth (b : Byte) (i : Nat) : Word := (b.extractLsb' 0 7).setWidth 64 <<< (7 * i)

/-- The loop of R101 from byte index `i` with `fuel` indices left and `value` gathered so far. Indices are exact:
nothing wraps. -/
def varintLoop (buf : Nat → Byte) (off len : Nat) : (fuel i : Nat) → Word → VarintResult
  | 0, _, _ => .malformed
  | fuel + 1, i, value =>
    if len ≤ off + i then .malformed
    else if (buf (off + i)).getLsbD 7 then
      varintLoop buf off len fuel (i + 1) (value ||| groupWorth (buf (off + i)) i)
    else .ok (value ||| groupWorth (buf (off + i)) i) (i + 1)

/-- `varint_decode(buf, off, len)`: at most 9 bytes (R101). -/
def varintDecode (buf : Nat → Byte) (off len : Nat) : VarintResult := varintLoop buf off len 9 0 0

/-- `packed_size(m)`, the document's table (R109). -/
def packedSize (m : Word) : Nat :=
  if m.toNat ≤ 127 then 1
  else if m.toNat ≤ 16383 then 2
  else if m.toNat ≤ 2097151 then 3
  else if m.toNat ≤ 268435455 then 4
  else if m.toNat ≤ 34359738367 then 5
  else if m.toNat ≤ 4398046511103 then 6
  else if m.toNat ≤ 562949953421311 then 7
  else 8

/-- VARINT_UNPACK (R102). A `VLEN` outside `VBUF` is no legal value (10_state.md R27): log entry 8. -/
def execVarintUnpack (s : State) : Host.Outcome State Fault Refusal :=
  if s.cfg.vbufBytes < s.vlen.toNat then .fault .decodeInputOutsideVbuf
  else match varintDecode s.vbufByte s.voff.toNat s.vlen.toNat with
    | .ok v k => .next { s with vval := v, vcnt := BitVec.ofNat 64 k, voff := s.voff + BitVec.ofNat 64 k }.complete
    | .malformed => .next (s.raise .malformedVarint)

/-- VARINT_SIZE (R108). -/
def execVarintSize (s : State) : Host.Outcome State Fault Refusal :=
  .next { s with vsize := BitVec.ofNat 64 (packedSize s.vin) }.complete

end Sys2Proof.Machine
end

