-- ==== Sys2Proof/Machine/Dispatch.lean ====
section
/-! DEFINITION. One arm per command, each a direct call of its meaning. -/

namespace Sys2Proof.Machine

def exec (i : Instr) (s : State) : Host.Outcome State Fault Refusal :=
  match i with
  | .nop => Sys2Proof.Machine.execNop s
  | .keccakInit => Sys2Proof.Machine.execKeccakInit s
  | .keccakPerm => Sys2Proof.Machine.execKeccakPerm s
  | .keccakAbsorb => Sys2Proof.Machine.execKeccakAbsorb s
  | .keccakAbsorbFinal len => Sys2Proof.Machine.execKeccakAbsorbFinal len s
  | .keccakSqueeze => Sys2Proof.Machine.execKeccakSqueeze s
  | .varintUnpack => Sys2Proof.Machine.execVarintUnpack s
  | .varintSize => Sys2Proof.Machine.execVarintSize s

end Sys2Proof.Machine
end

