-- ==== Sys2Proof/Machine/HostPort.lean ====
section
/-! DEFINITION. The host port (20_memory.md): the address map R51, which accesses are refused (R59), and the two access
primitives R53 and R54. Offsets are counted from `BLOCK_BASE`. Values are held in 64 bits: log entry 14. -/

namespace Sys2Proof.Machine

/-- The mapped regions of R51. -/
inductive Region where
  | cmd | status | vlen | voff | vval | vcnt | vin | vsize | lanes | mb | digest | vbuf
  deriving DecidableEq, Repr

/-- Every region, by rising offset. -/
def Region.all : List Region :=
  [.cmd, .status, .vlen, .voff, .vval, .vcnt, .vin, .vsize, .lanes, .mb, .digest, .vbuf]

/-- The first offset of a region (R51). -/
def Region.base : Region → Nat
  | .cmd => 0x0000
  | .status => 0x0008
  | .vlen => 0x0010
  | .voff => 0x0018
  | .vval => 0x0020
  | .vcnt => 0x0028
  | .vin => 0x0030
  | .vsize => 0x0038
  | .lanes => 0x0100
  | .mb => 0x0200
  | .digest => 0x0300
  | .vbuf => 0x8000

/-- How many bytes a region has (R51). -/
def Region.size (p : Config.Params) : Region → Nat
  | .cmd | .status | .vlen | .voff | .vval | .vcnt | .vin | .vsize => 8
  | .lanes => 200
  | .mb => 136
  | .digest => 32
  | .vbuf => p.vbufBytes

/-- A register, as opposed to a buffer (R55). -/
def Region.isRegister : Region → Bool
  | .cmd | .status | .vlen | .voff | .vval | .vcnt | .vin | .vsize => true
  | .lanes | .mb | .digest | .vbuf => false

/-- Read-only to the host (R51, R57). -/
def Region.readOnly : Region → Bool
  | .status | .vval | .vcnt | .vsize | .digest => true
  | .cmd | .vlen | .voff | .vin | .lanes | .mb | .vbuf => false

/-- A read while a command is pending returns any value (R58). `STATUS` is apart: only its `EOF` bit is free. -/
def Region.freeWhileBusy : Region → Bool
  | .lanes | .digest | .voff | .vval | .vcnt | .vsize => true
  | .cmd | .status | .vlen | .vin | .mb | .vbuf => false

/-- Offset `a` is one of the region's bytes. -/
def Region.holds (p : Config.Params) (a : Nat) (r : Region) : Bool := r.base ≤ a && a < r.base + r.size p

/-- The region offset `a` lies in; `none` where the map has a gap (R51, R56). -/
def regionAt? (p : Config.Params) (a : Nat) : Option Region := Region.all.find? (Region.holds p a)

/-- The access of `n` bytes at `a` lies wholly inside the region (R55, R59 point 2). -/
def Region.contains (p : Config.Params) (r : Region) (a n : Nat) : Bool := r.base ≤ a && a + n ≤ r.base + r.size p

/-- Width and alignment (R55). -/
def Region.widthOk (r : Region) (a n : Nat) : Bool :=
  if r.isRegister then n == 8 && a == r.base
  else (n == 1 || n == 2 || n == 4 || n == 8) && a % n == 0

/-- A host access: a read, or a write of a value (R59). -/
inductive Access where
  | read
  | write (v : Word)
  deriving DecidableEq, Repr

/-- The access is a write. -/
def Access.isWrite : Access → Bool
  | .read => false
  | .write _ => true

/-- A write that would break the cursor's invariant: `VLEN` above `VBUF_BYTES` or below `VOFF`, `VOFF` above `VLEN`
(R59 points 5 and 6). -/
def State.cursorRefused (s : State) : Region → Access → Bool
  | .vlen, .write v => s.cfg.vbufBytes < v.toNat || v.toNat < s.voff.toNat
  | .voff, .write v => s.vlen.toNat < v.toNat
  | _, _ => false

/-- `refused(a, n, kind, v)` (R59). -/
def State.refused (s : State) (a n : Nat) (k : Access) : Bool :=
  (s.busy && k.isWrite) ||
    match regionAt? s.cfg a with
    | none => true
    | some r =>
      !r.contains s.cfg a n || !r.widthOk a n || (k.isWrite && r.readOnly) || s.cursorRefused r k

/-- The value a read of `n` bytes at `a` of a region returns while no command is pending (R53, R52). -/
def State.readExact (s : State) (r : Region) (a n : Nat) : Word :=
  match r with
  | .cmd => s.cmd
  | .status => s.statusWord
  | .vlen => s.vlen
  | .voff => s.voff
  | .vval => s.vval
  | .vcnt => s.vcnt
  | .vin => s.vin
  | .vsize => s.vsize
  | .lanes => leCompose (fun k => laneByte s.lanes (a - 0x0100 + k)) n
  | .mb => leCompose (fun k => s.readByte (a + k)) n
  | .digest => leCompose (fun k => s.digestByte (a - 0x0300 + k)) n
  | .vbuf => leCompose (fun k => s.readByte (a + k)) n

/-- `STATUS` read while a command is pending: `EOF` is any value (R58, U5). -/
def State.statusBusy (s : State) : Word := s.statusWith ((Config.drawnRead s.draws).getLsbD 0)

/-- `MemRead(a, n)`: the value returned and the state after (R53). While the reset input is asserted a read returns any
value and has no effect (70_reset_and_hazards.md R230). Log entries 5, 6. -/
def State.memRead (s : State) (a n : Nat) : Word × State :=
  if s.inReset then (s.drawnValue n, s.drew)
  else if s.refused a n .read then (0, s.refuseAccess)
  else match regionAt? s.cfg a with
    | none => (0, s.refuseAccess)
    | some r =>
      if s.busy && r.freeWhileBusy then (s.drawnValue n, s.drew)
      else if s.busy && r = .status then (s.statusBusy, s.drew)
      else (s.readExact r a n, s)

/-- A write that is not refused (R54). No write reaches a read-only region (R57). -/
def State.writeExact (s : State) (r : Region) (a n : Nat) (v : Word) : State :=
  match r with
  | .cmd => s.acceptCommand v
  | .vlen => { s with vlen := v }
  | .voff => { s with voff := v }
  | .vin => { s with vin := v }
  | .lanes => { s with lanes := setLaneBytes s.lanes (a - 0x0100) v n }
  | .mb => { s with mem := s.mem.storeBytes a v n }
  | .vbuf => { s with mem := s.mem.storeBytes a v n }
  | .status | .vval | .vcnt | .vsize | .digest => s

/-- `MemWrite(a, n, v)` (R54). While the reset input is asserted it has no effect (70_reset_and_hazards.md R230). -/
def State.memWrite (s : State) (a n : Nat) (v : Word) : State :=
  if s.inReset then s
  else if s.refused a n (.write v) then s.refuseAccess
  else match regionAt? s.cfg a with
    | none => s.refuseAccess
    | some r => s.writeExact r a n v

end Sys2Proof.Machine
end

