-- ==== Sys2Proof/Machine/HostScript.lean ====
section
/-! DEFINITION. The host and the order of moves: which agent moves next (60_exceptions.md R200, 20_memory.md R62), what
the host's next statement does (30_encoding.md R87, R88), and the pseudo-instructions and the one-call hash as scripts
(R88, 42_keccak_sponge.md R168). -/

namespace Sys2Proof.Machine

/-- The host-port offset of a host address, if it lies in the block's 64 KiB window at `BLOCK_BASE` (20_memory.md
R50). -/
def portOffset? (p : Config.Params) (addr : Nat) : Option Nat :=
  if p.blockBase ≤ addr ∧ addr < p.blockBase + 0x10000 then some (addr - p.blockBase) else none

/-- Whose move is next: the one listed, else the engine's while a command is pending (its step is always enabled and
happens eventually, R200), else the host's. Log entry 1. -/
def State.nextTurn (s : State) : Turn :=
  match s.turns with
  | t :: _ => t
  | [] => if s.busy then .engine else .host

/-- The state with the move that is next taken off the list. -/
def State.popTurn (s : State) : State := { s with turns := s.turns.tail }

/-- An `rd` that returned `v`. -/
def State.record (s : State) (v : Word) : State := { s with results := s.results ++ [v] }

/-- The host performs its next statement: none left, nothing happens; an access outside the block's window is not the
block's; `wait` reads `STATUS` and stays while bit 0 of the value is 1 (30_encoding.md R87, R88). Log entries 1, 10. -/
def State.hostMove (s : State) : State :=
  match s.script with
  | [] => s
  | .rd addr n :: rest =>
    match portOffset? s.cfg addr with
    | none => { s with script := rest }
    | some a => { (s.memRead a n).2.record (s.memRead a n).1 with script := rest }
  | .wr addr n v :: rest =>
    match portOffset? s.cfg addr with
    | none => { s with script := rest }
    | some a => { s.memWrite a n v with script := rest }
  | .wait :: rest =>
    { (s.memRead 0x0008 8).2.record (s.memRead 0x0008 8).1 with
      script := if (s.memRead 0x0008 8).1.getLsbD 0 then .wait :: rest else rest }

/-- A command mnemonic: the write of its word to `CMD` (30_encoding.md R87). -/
def commandStmt (p : Config.Params) (i : Instr) : HostStmt := .wr p.blockBase 8 (encode i)

/-- `issue X` (R88). -/
def issue (p : Config.Params) (i : Instr) : List HostStmt := [commandStmt p i, .wait]

/-- `keccak_absorb_empty` (R88). -/
def keccakAbsorbEmpty (p : Config.Params) : List HostStmt := [commandStmt p (.keccakAbsorbFinal 0)]

/-- `checksum` (R88, 42_keccak_sponge.md R167). -/
def checksum (p : Config.Params) : List HostStmt := [.rd (p.blockBase + 0x0300) 4]

/-- One-byte writes of `bs` from address `addr` on. -/
def byteWrites : (addr : Nat) → List Byte → List HostStmt
  | _, [] => []
  | addr, b :: bs => .wr addr 1 (b.setWidth 64) :: byteWrites (addr + 1) bs

/-- `varint_load b0, ..., b(n-1)` (R88): `VOFF` before `VLEN`. -/
def varintLoad (p : Config.Params) (bs : List Byte) : List HostStmt :=
  .wr (p.blockBase + 0x0018) 8 0 :: .wr (p.blockBase + 0x0010) 8 (BitVec.ofNat 64 bs.length)
    :: byteWrites (p.blockBase + 0x8000) bs

/-- `varint_rewind` (R88). -/
def varintRewind (p : Config.Params) : List HostStmt := [.wr (p.blockBase + 0x0018) 8 0]

/-- `mb_load b0, ..., b(k-1)` (R88), k ≤ 136. -/
def mbLoad (p : Config.Params) (bs : List Byte) : List HostStmt := byteWrites (p.blockBase + 0x0200) bs

/-- Block `k` of a message: its bytes 136k to 136k + 135, fewer at its end (42_keccak_sponge.md R168). -/
def messagePart (m : List Byte) (k : Nat) : List Byte := (m.drop (136 * k)).take 136

/-- `keccak256 m`: the host program of 42_keccak_sponge.md R168, each command followed by `wait`. DESIGN CHOICE: R168 names
no access width for its writes of message bytes to `MB`; the script makes them one byte at a time, as `mb_load` does
(30_encoding.md R88). Log entry 15. -/
def keccak256Script (p : Config.Params) (m : List Byte) : List HostStmt :=
  issue p .keccakInit
    ++ (List.range (m.length / 136)).flatMap (fun k => mbLoad p (messagePart m k) ++ issue p .keccakAbsorb)
    ++ mbLoad p (messagePart m (m.length / 136))
    ++ issue p (.keccakAbsorbFinal (BitVec.ofNat 8 (m.length % 136)))
    ++ issue p .keccakSqueeze

end Sys2Proof.Machine
end

