-- ==== Sys2Proof/Machine/Engine.lean ====
section
/-! DEFINITION. The engine's step (60_exceptions.md R200), what a move of each agent does, and how a command is placed
for the next step. -/

namespace Sys2Proof.Machine

/-- The engine step of R200: decode `PEND`; an illegal word ends with code 0x10 (R202), any other is performed. With no
command pending the engine has no step. It takes no time: log entry 7. -/
def State.engineMove (s : State) : Host.Outcome State Fault Refusal :=
  match s.pend with
  | none => .next s
  | some w =>
    match decode w with
    | .ok i => exec i s
    | .error _ => .next (s.raise .illegalCommand)

/-- What the move `t` does. -/
def State.move (s : State) (t : Turn) : Host.Outcome State Fault Refusal :=
  match t with
  | .engine => s.engineMove
  | .host => .next s.hostMove
  | .assertReset => .next s.assertReset
  | .releaseReset => .next s.releaseReset

/-- The word `w` accepted as a command in a block out of reset (10_state.md R40), the engine to move next. Log entry
11. -/
def State.placeCommand (s : State) (w : Word) : State :=
  { s.acceptCommand w with inReset := false, turns := .engine :: s.turns }

end Sys2Proof.Machine
end

