-- ==== Sys2Proof/Machine/Step.lean ====
section
/-! DEFINITION. One step of the machine: the agent whose move is next makes it. -/

namespace Sys2Proof.Machine

/-- One step: the move that is next (`State.nextTurn`) is taken off the list and made. -/
def step (s : State) : Host.Outcome State Fault Refusal := s.popTurn.move s.nextTurn

/-- `s` with the opcode table's word `w` of `nbits` bits accepted as the command the next step performs. -/
def State.withFetchWord (s : State) (nbits w : Nat) : State := s.placeCommand (tableWord nbits w)

end Sys2Proof.Machine
end

