-- ==== Sys2Proof/Safety.lean ====
section
/-! DEFINITION. What claims are stated with: the invariant of the block's state, the end of a run and its outcome
(70_reset_and_hazards.md R247, R248), the canonical varint encoding (40_varint.md R106). -/

namespace Sys2Proof.Machine

/-- Offset `a` is a byte of `MB` or `VBUF` (20_memory.md R51). -/
def memoryOffset (p : Config.Params) (a : Nat) : Prop :=
  (0x0200 ≤ a ∧ a < 0x0200 + 136) ∨ (0x8000 ≤ a ∧ a < 0x8000 + p.vbufBytes)

/-- The written bytes are in canonical form, each at an offset of `MB` or `VBUF`. -/
def State.memoryInv (s : State) : Prop := s.mem.wf ∧ ∀ c ∈ s.mem, memoryOffset s.cfg c.1

/-- `VOFF ≤ VLEN ≤ VBUF_BYTES` (10_state.md R27, R28). -/
def State.cursorInv (s : State) : Prop := s.voff.toNat ≤ s.vlen.toNat ∧ s.vlen.toNat ≤ s.cfg.vbufBytes

/-- The ranges of the varint unit's results (10_state.md R29, R30, R32). -/
def State.varintInv (s : State) : Prop :=
  s.vval.toNat < 2 ^ 63 ∧ s.vcnt.toNat ≤ 9 ∧ s.vsize.toNat ≤ 8

/-- The stored part of `STATUS` (10_state.md R34, R36, R39, R40): `ERR` is a code the block raises, and while a command
is pending `CMD` holds its word, `DONE` is 0 and `ERR` is 0. While reset is asserted nothing is pending (R230). -/
def State.statusInv (s : State) : Prop :=
  s.err.raised = true ∧ (∀ w, s.pend = some w → s.cmd = w ∧ s.done = false ∧ s.err = .ok)
    ∧ (s.inReset = true → s.pend = none)

/-- The invariant every step keeps. -/
structure State.Inv (s : State) : Prop where
  cfg : s.cfg.wf
  memory : s.memoryInv
  cursor : s.cursorInv
  varint : s.varintInv
  status : s.statusInv

/-- The values of 10_state.md R43: what every piece of state holds after a reset, `MB` and `VBUF` their draw. -/
structure State.HoldsResetValues (s : State) : Prop where
  lanes : ∀ i : Fin 25, s.lanes[i] = 0
  digest : ∀ i : Fin 32, s.digest[i] = 0
  buffers : ∀ a, memoryOffset s.cfg a → s.readByte a = Config.drawnByte s.resetDraw a
  registers : s.vlen = 0 ∧ s.voff = 0 ∧ s.vval = 0 ∧ s.vcnt = 0 ∧ s.vin = 0 ∧ s.vsize = 0 ∧ s.cmd = 0
  status : s.statusWord = 0x0000000000000004
  pend : s.pend = none

/-- A host access of `n` bytes at offset `a` that the address map allows (20_memory.md R51, R55, R56): a register at
its own offset with 8 bytes, or 1, 2, 4 or 8 bytes naturally aligned and wholly inside a buffer. -/
def legalAccess (p : Config.Params) (a n : Nat) : Prop :=
  (n = 8 ∧ (a = 0x00 ∨ a = 0x08 ∨ a = 0x10 ∨ a = 0x18 ∨ a = 0x20 ∨ a = 0x28 ∨ a = 0x30 ∨ a = 0x38)) ∨
  ((n = 1 ∨ n = 2 ∨ n = 4 ∨ n = 8) ∧ a % n = 0 ∧
    ((0x0100 ≤ a ∧ a + n ≤ 0x01C8) ∨ (0x0200 ≤ a ∧ a + n ≤ 0x0288) ∨ (0x0300 ≤ a ∧ a + n ≤ 0x0320) ∨
      (0x8000 ≤ a ∧ a + n ≤ 0x8000 + p.vbufBytes)))

/-- Offset `a` is read-only to the host (20_memory.md R57): `STATUS`, `VVAL`, `VCNT`, `VSIZE` or a byte of `D`. -/
def readOnlyOffset (a : Nat) : Prop :=
  a = 0x08 ∨ a = 0x20 ∨ a = 0x28 ∨ a = 0x38 ∨ (0x0300 ≤ a ∧ a < 0x0320)

/-- The state a command that ends with `code` and changes nothing else leaves (60_exceptions.md R200, R202). -/
def State.ended (s : State) (code : ErrCode) : State := { s with err := code, done := true, pend := none }

/-- The run has ended: the host has performed its last statement and no command is pending (R247). -/
def State.runEnded (s : State) : Prop := s.script = [] ∧ s.pend = none

/-- No access was refused since `HERR` was last cleared (R247). -/
def State.noAccessRefused (s : State) : Prop := s.herr = false

/-- The last command succeeded (R247). -/
def State.lastCommandOk (s : State) : Prop := s.done = true ∧ s.err = .ok

/-- The bytes of `canon(v)` with `fuel` bytes left to write (40_varint.md R106): 7-bit groups, least significant
first, bit 7 set on every byte but the last. -/
def canonBytes : (fuel : Nat) → Nat → List Byte
  | 0, _ => []
  | fuel + 1, v =>
    if v < 128 then [BitVec.ofNat 8 v] else BitVec.ofNat 8 (v % 128 + 128) :: canonBytes fuel (v / 128)

/-- `canon(v)`, the minimal encoding of a 64-bit value (40_varint.md R106): at most 10 bytes. -/
def canon (v : Word) : List Byte := canonBytes 10 v.toNat

/-- `rc(t)` of the round-constant generator (41_keccak_permutation.md R139): bit 0 after `t` LFSR steps. -/
def lfsr : Nat → Nat
  | 0 => 1
  | t + 1 => if lfsr t * 2 / 256 % 2 = 1 then (lfsr t * 2) ^^^ 0x171 else lfsr t * 2

/-- `RC[r]` of the generator (R139). -/
def generatedRC (r : Nat) : Nat :=
  ((List.range 7).map fun j => lfsr ((j + 7 * r) % 255) % 2 * 2 ^ (2 ^ j - 1)).sum

/-- The `t`-th position the rotation-offset generator visits (R139). -/
def rhoWalk : Nat → Fin 5 × Fin 5
  | 0 => (1, 0)
  | t + 1 => ((rhoWalk t).2, 2 * (rhoWalk t).1 + 3 * (rhoWalk t).2)

/-- The rho+pi move table, one row per source lane: source, destination, rotation (R134). -/
def rhoPiMoves : List (Fin 25 × Fin 25 × Nat) :=
  [(0, 0, 0), (1, 10, 1), (2, 20, 62), (3, 5, 28), (4, 15, 27),
   (5, 16, 36), (6, 1, 44), (7, 11, 6), (8, 21, 55), (9, 6, 20),
   (10, 7, 3), (11, 17, 10), (12, 2, 43), (13, 12, 25), (14, 22, 39),
   (15, 23, 41), (16, 8, 45), (17, 18, 15), (18, 3, 21), (19, 13, 8),
   (20, 14, 18), (21, 24, 2), (22, 9, 61), (23, 19, 56), (24, 4, 14)]

/-- The packed-size table (40_varint.md R109): from, to, size. -/
def packedSizeTable : List (Nat × Nat × Nat) :=
  [(0, 127, 1), (128, 16383, 2), (16384, 2097151, 3), (2097152, 268435455, 4),
   (268435456, 34359738367, 5), (34359738368, 4398046511103, 6),
   (4398046511104, 562949953421311, 7), (562949953421312, 18446744073709551615, 8)]

end Sys2Proof.Machine
end

