-- ==== Sys2Proof/Certificates/Slice0/Obligations.lean ====
section
/-! DEFINITION. The statements for the provers, each a closed proposition about the machine. -/

open Sys2Proof Sys2Proof.Machine

/-! Reset and the invariant -/

/-- 10_state.md R43: what the state holds after reset. -/
def Obligations.ResetHoldsSpecValues : Prop := State.reset.HoldsResetValues

/-- The state after reset meets the invariant. It holds for `State.reset`, whose configuration is the model's choice
(log entry 2). -/
def Obligations.ResetMeetsInvariant : Prop := State.reset.Inv

/-- Every step of host, engine or platform keeps the invariant: the parameters' ranges, the canonical memory, the
cursor `VOFF ≤ VLEN ≤ VBUF_BYTES` (R28), the result ranges (R29, R30, R32), the `STATUS` and `PEND` relations. -/
def Obligations.StepKeepsInvariant : Prop := ∀ s t : State, s.Inv → step s = .next t → t.Inv

/-- No command, access or error stops the block (U25, R208): in a state that meets the invariant every step answers a
next state. -/
def Obligations.StepNeverStops : Prop := ∀ s : State, s.Inv → ∃ t, step s = .next t

/-- The parameters are configuration (R20): no step changes them. -/
def Obligations.StepKeepsConfiguration : Prop := ∀ s t : State, step s = .next t → t.cfg = s.cfg

/-- 70_reset_and_hazards.md R230: asserting reset discards the pending command and gives every piece of state its reset
value, with a new draw of the buffers; while it is asserted host accesses have no effect and a read returns any value;
the block leaves it with `BUSY` 0 and every value kept. The turns and the free values are the model's form (log entries
1, 3, 5, 6). -/
def Obligations.ResetDiscardsAndRestores : Prop :=
  (∀ s : State, s.nextTurn = .assertReset → ∃ t, step s = .next t ∧ t.HoldsResetValues ∧ t.inReset = true ∧
      t.resetDraw = s.resetDraw + 1) ∧
  (∀ (s : State) (a n : Nat) (v : Word), s.inReset = true → s.memWrite a n v = s ∧
      s.memRead a n = (leCompose (wordByte (Config.drawnRead s.draws)) n, { s with draws := s.draws + 1 })) ∧
  (∀ s : State, s.nextTurn = .releaseReset → s.HoldsResetValues → ∃ t, step s = .next t ∧ t.HoldsResetValues ∧
      t.busy = false ∧ t.inReset = false)

/-! Decoding -/

/-- Decoding an encoded well-formed command gives it back, for every command and every tail length. -/
def Obligations.DecodeInvertsEncode : Prop := ∀ i : Instr, i.wellFormed = true → decode (encode i) = .ok i

/-- Each word has at most one meaning: a word that decodes is the encoding of the well-formed command it decodes to. -/
def Obligations.EncodeInvertsDecode : Prop :=
  ∀ (w : Word) (i : Instr), decode w = .ok i → encode i = w ∧ i.wellFormed = true

/-- A well-formed command is read from its eight bytes, lowest offset first (R52), whatever follows them. -/
def Obligations.DecodeReadsStoredBytes : Prop :=
  ∀ (i : Instr) (rest : List Byte), i.wellFormed = true → decodeBytes (wordBytes (encode i) ++ rest) = .ok (i, rest)

/-- 30_encoding.md R85, R86: exactly which words are illegal; the engine's move on one ends with code 0x10 and no other
effect; on any other it performs the command; NOP is the all-zero word alone. -/
def Obligations.DecodeRefusesExactlyIllegalWords : Prop :=
  (∀ w : Word, (∃ e, decode w = .error e) ↔
    (w.extractLsb' 16 48 ≠ 0 ∨
      w.extractLsb' 0 8 ∉ ([0x00, 0x01, 0x02, 0x03, 0x04, 0x05, 0x10, 0x11] : List Byte) ∨
      (w.extractLsb' 0 8 ≠ 0x04 ∧ w.extractLsb' 8 8 ≠ 0) ∨
      (w.extractLsb' 0 8 = 0x04 ∧ 135 < (w.extractLsb' 8 8).toNat))) ∧
  ErrCode.illegalCommand.code = 0x10 ∧
  (∀ (s : State) (w : Word) (e : DecodeError), s.pend = some w → decode w = .error e →
    s.engineMove = .next (State.ended s .illegalCommand)) ∧
  (∀ (s : State) (w : Word) (i : Instr), s.pend = some w → decode w = .ok i → s.engineMove = exec i s) ∧
  ∀ w : Word, decode w = .ok .nop ↔ w = 0

/-- A few words of 30_encoding.md R82, written out. -/
def Obligations.SpecWordsDecode : Prop :=
  decode 0x0000000000000000 = .ok .nop ∧ decode 0x0000000000000003 = .ok .keccakAbsorb ∧
  decode 0x0000000000008704 = .ok (.keccakAbsorbFinal 135) ∧ decode 0x0000000000000005 = .ok .keccakSqueeze ∧
  decode 0x0000000000000010 = .ok .varintUnpack

/-- The engine's step at a state with the word `w` pending runs the command `w` decodes to, on the state less the move
taken off the list (60_exceptions.md R200; log entry 1). -/
def Obligations.StepRunsTheDecodedCommand : Prop :=
  ∀ (s : State) (w : Word) (i : Instr), s.nextTurn = .engine → s.pend = some w → decode w = .ok i →
    step s = exec i { s with turns := s.turns.tail }

/-- 60_exceptions.md R202: a pending word that is no command ends with code 0x10, and nothing else changes. -/
def Obligations.IllegalWordOnlyReportsItsCode : Prop :=
  ErrCode.illegalCommand.code = 0x10 ∧
  ∀ (s : State) (w : Word) (e : DecodeError), s.nextTurn = .engine → s.pend = some w → decode w = .error e →
    step s = .next (State.ended { s with turns := s.turns.tail } .illegalCommand)

/-! The commands: results and frames. `State.ended` changes only `ERR`, `DONE` and `PEND`, so each equation says what
the command leaves unchanged, too. -/

/-- 43_system.md R190: NOP clears `HERR` and nothing else; it is the all-zero word; an illegal word does not clear
`HERR`; no step but a reset or the engine's step on a NOP clears it; a write while busy, of NOP too, is refused and sets
`HERR`. -/
def Obligations.NopClearsTheAccessError : Prop :=
  (∀ s : State, exec .nop s = .next (State.ended { s with herr := false } .ok)) ∧
  (∀ w : Word, decode w = .ok .nop ↔ w = 0) ∧
  (∀ s t : State, ∀ w e, s.pend = some w → decode w = .error e → s.engineMove = .next t → t.herr = s.herr) ∧
  (∀ s t : State, step s = .next t → s.herr = true → t.herr = false →
    s.nextTurn = .assertReset ∨ (s.nextTurn = .engine ∧ s.pend = some (encode .nop))) ∧
  (∀ s : State, s.busy = true → s.inReset = false → s.memWrite 0x0000 8 0 = { s with herr := true })

/-- 42_keccak_sponge.md R160: KECCAK_INIT makes all 25 lanes 0 and touches nothing else; its word is 1. -/
def Obligations.KeccakInitZeroesTheLanes : Prop :=
  decode 0x0000000000000001 = .ok .keccakInit ∧
  ∀ s : State, ∃ A : Lanes, (∀ i : Fin 25, A[i] = 0) ∧
    exec .keccakInit s = .next (State.ended { s with lanes := A } .ok)

/-- 41_keccak_permutation.md R132: theta. -/
def Obligations.ThetaFollowsItsEquation : Prop :=
  ∀ (A : Lanes) (C D : Fin 5 → Word),
    (∀ x, C x = lane A x 0 ^^^ lane A x 1 ^^^ lane A x 2 ^^^ lane A x 3 ^^^ lane A x 4) →
    (∀ x, D x = C (x - 1) ^^^ ((C (x + 1) <<< 1) ||| (C (x + 1) >>> 63))) →
    ∀ x y, lane (theta A) x y = lane A x y ^^^ D x

/-- 41_keccak_permutation.md R133 and R134: where rho+pi moves each lane, by coordinates and by the table; each
destination has exactly one source. -/
def Obligations.RhoPiMovesEachLane : Prop :=
  (∀ (A : Lanes) (x y : Fin 5), lane (rhoPi A) y (2 * x + 3 * y) = rotl64 (lane A x y) (rhoOffset x y)) ∧
  (∀ u v : Fin 5, ∃ x y : Fin 5, (y = u ∧ 2 * x + 3 * y = v) ∧
    ∀ x' y' : Fin 5, y' = u → 2 * x' + 3 * y' = v → x' = x ∧ y' = y) ∧
  (∀ (A : Lanes), ∀ m ∈ rhoPiMoves, (rhoPi A)[m.2.1] = rotl64 A[m.1] m.2.2) ∧
  (∀ (a : Word) (n : Nat), n < 64 → rotl64 a n = a.rotateLeft n)

/-- 41_keccak_permutation.md R136: chi. -/
def Obligations.ChiFollowsItsEquation : Prop :=
  ∀ (B : Lanes) (x y : Fin 5), lane (chi B) x y = lane B x y ^^^ (~~~(lane B (x + 1) y) &&& lane B (x + 2) y)

/-- 41_keccak_permutation.md R138: iota changes lane 0 alone. -/
def Obligations.IotaChangesLaneZeroAlone : Prop :=
  ∀ (A : Lanes) (rc : Word), (iota A rc)[0] = A[0] ^^^ rc ∧ ∀ i : Fin 25, i ≠ 0 → (iota A rc)[i] = A[i]

/-- 41_keccak_permutation.md R139: the two tables are what their generators give, and the rotation-offset generator
reaches every position but the first. -/
def Obligations.TablesMatchTheirGenerators : Prop :=
  (∀ r : Fin 24, (roundConstants.getD r.val 0).toNat = generatedRC r.val) ∧
  (∀ t : Fin 24, rhoOffset (rhoWalk t.val).1 (rhoWalk t.val).2 = (t.val + 1) * (t.val + 2) / 2 % 64) ∧
  (∀ x y : Fin 5, (x ≠ 0 ∨ y ≠ 0) → ∃ t : Fin 24, rhoWalk t.val = (x, y)) ∧
  rhoOffset 0 0 = 0

/-- 41_keccak_permutation.md R131, R140: KECCAK_PERM applies the four steps, in order, for r = 0 to 23, and changes only
the lanes; its word is 2. -/
def Obligations.KeccakPermRunsAllRounds : Prop :=
  decode 0x0000000000000002 = .ok .keccakPerm ∧
  ∀ s : State, ∃ A : Nat → Lanes, A 0 = s.lanes ∧
    (∀ r < 24, A (r + 1) = iota (chi (rhoPi (theta (A r)))) (roundConstants.getD r 0)) ∧
    exec .keccakPerm s = .next (State.ended { s with lanes := A 24 } .ok)

/-- 42_keccak_sponge.md R163: KECCAK_ABSORB XORs the 17 little-endian lanes of `MB` into the rate, leaves the capacity
lanes to the permutation, and changes only the lanes; its word is 3. -/
def Obligations.KeccakAbsorbXorsTheBlock : Prop :=
  decode 0x0000000000000003 = .ok .keccakAbsorb ∧
  ∀ s : State, ∃ X : Lanes,
    (∀ i : Fin 25, i.val < 17 → X[i] = s.lanes[i] ^^^ le64 fun k => s.mbByte (8 * i.val + k)) ∧
    (∀ i : Fin 25, 17 ≤ i.val → X[i] = s.lanes[i]) ∧
    exec .keccakAbsorb s = .next (State.ended { s with lanes := keccakF X } .ok)

/-- 42_keccak_sponge.md R164, R165: KECCAK_ABSORB_FINAL t absorbs the tail `MB[0..t-1]`, 0x01, zeros, with 0x80 ORed
into byte 135, and changes only the lanes; its word is 4 + t*0x100, and one with t above 135 is an illegal command that
leaves the state. -/
def Obligations.KeccakAbsorbFinalPadsTheTail : Prop :=
  (∀ (s : State) (t : Byte), t.toNat ≤ 135 →
    decode (0x0000000000000004 + t.setWidth 64 * 0x100) = .ok (.keccakAbsorbFinal t) ∧
    ∃ (P : Nat → Byte) (X : Lanes),
      (∀ j < t.toNat, P j = s.mbByte j) ∧
      (t.toNat < 135 → P t.toNat = 0x01 ∧ (∀ j, t.toNat < j → j < 135 → P j = 0x00) ∧ P 135 = 0x00 ||| 0x80) ∧
      (t.toNat = 135 → P 135 = 0x01 ||| 0x80) ∧
      (∀ i : Fin 25, i.val < 17 → X[i] = s.lanes[i] ^^^ le64 fun k => P (8 * i.val + k)) ∧
      (∀ i : Fin 25, 17 ≤ i.val → X[i] = s.lanes[i]) ∧
      exec (.keccakAbsorbFinal t) s = .next (State.ended { s with lanes := keccakF X } .ok)) ∧
  (∀ (s : State) (t : Byte), 135 < t.toNat → s.pend = some (0x0000000000000004 + t.setWidth 64 * 0x100) →
    s.engineMove = .next (State.ended s .illegalCommand))

/-- A tail length of 136 to 255 is an illegal command, in `exec` too (R85, R164; log entry 9). -/
def Obligations.KeccakAbsorbFinalRefusesLongTails : Prop :=
  ∀ (s : State) (t : Byte), 135 < t.toNat →
    exec (.keccakAbsorbFinal t) s = .next (State.ended s .illegalCommand) ∧
      ∀ w : Word, decode w ≠ .ok (.keccakAbsorbFinal t)

/-- 42_keccak_sponge.md R164: bytes `MB[t..135]` are not read: two states with the same lanes and the same first t bytes
of `MB` give the same lanes. -/
def Obligations.AbsorbFinalIgnoresBytesPastTheTail : Prop :=
  ∀ (s s' u u' : State) (t : Byte), s.lanes = s'.lanes → (∀ j < t.toNat, s.mbByte j = s'.mbByte j) →
    exec (.keccakAbsorbFinal t) s = .next u → exec (.keccakAbsorbFinal t) s' = .next u' → u.lanes = u'.lanes

/-- 42_keccak_sponge.md R166: KECCAK_SQUEEZE copies the first four lanes to `D`, byte by byte, and changes only `D`; its
word is 5. -/
def Obligations.KeccakSqueezeCopiesFourLanes : Prop :=
  decode 0x0000000000000005 = .ok .keccakSqueeze ∧
  ∀ s : State, ∃ D : Vector Byte 32,
    (∀ (j : Fin 32) (_ : j.val / 8 < 25), D[j] = s.lanes[j.val / 8].extractLsb' (8 * (j.val % 8)) 8) ∧
    exec .keccakSqueeze s = .next (State.ended { s with digest := D } .ok)

/-- 40_varint.md R100 to R102: with k bytes at the cursor, 1 to 9, of which only the last has bit 7 clear, all inside
the decode input, VARINT_UNPACK writes the sum of the groups' worths, k, and the cursor moved by k, and nothing else. -/
def Obligations.VarintUnpackDecodesTheGroups : Prop :=
  ∀ (s : State) (k : Nat), s.vlen.toNat ≤ s.cfg.vbufBytes → 1 ≤ k → k ≤ 9 → s.voff.toNat + k ≤ s.vlen.toNat →
    (∀ i, i + 1 < k → (s.vbufByte (s.voff.toNat + i)).getLsbD 7 = true) →
    (s.vbufByte (s.voff.toNat + (k - 1))).getLsbD 7 = false →
    exec .varintUnpack s = .next (State.ended
      { s with
        vval := BitVec.ofNat 64 (∑ i ∈ Finset.range k, (s.vbufByte (s.voff.toNat + i)).toNat % 128 * 2 ^ (7 * i))
        vcnt := BitVec.ofNat 64 k
        voff := BitVec.ofNat 64 (s.voff.toNat + k) } .ok)

/-- 40_varint.md R102, R107: when the input ends, or nine bytes pass, before a byte with bit 7 clear, VARINT_UNPACK
reports MalformedVarint and changes nothing else. -/
def Obligations.VarintUnpackReportsMalformedInput : Prop :=
  ErrCode.malformedVarint.code = 0x02 ∧
  ∀ s : State, s.vlen.toNat ≤ s.cfg.vbufBytes →
    (∀ i < 9, s.voff.toNat + i < s.vlen.toNat → (s.vbufByte (s.voff.toNat + i)).getLsbD 7 = true) →
    exec .varintUnpack s = .next (State.ended s .malformedVarint)

/-- 40_varint.md R104: a successful decode moves the cursor forward by its count, 1 to 9, not past `VLEN`; a failed one
does not move it. The value is below 2^63 (R103). -/
def Obligations.VarintUnpackStaysInBounds : Prop :=
  (∀ s t : State, exec .varintUnpack s = .next t → t.err = .ok →
    t.vval.toNat < 2 ^ 63 ∧ 1 ≤ t.vcnt.toNat ∧ t.vcnt.toNat ≤ 9 ∧
      t.voff.toNat = s.voff.toNat + t.vcnt.toNat ∧ t.voff.toNat ≤ t.vlen.toNat ∧ t.vlen = s.vlen) ∧
  ∀ s t : State, exec .varintUnpack s = .next t → t.err ≠ .ok → t.voff = s.voff ∧ t.vlen = s.vlen

/-- 40_varint.md R106: the canonical encoding has 1 byte for 0 and one per started group of 7 bits otherwise, each byte
the group of its place, and every value below 2^63 decodes from it with its length. -/
def Obligations.CanonicalEncodingDecodes : Prop :=
  ∀ (v : Word) (buf : Nat → Byte), v.toNat < 2 ^ 63 →
    (canon v).length = (if v.toNat = 0 then 1 else (Nat.size v.toNat + 6) / 7) ∧
    (∀ i < (canon v).length, ((canon v).getD i 0).extractLsb' 0 7 = v.extractLsb' (7 * i) 7) ∧
    ((∀ i < (canon v).length, buf i = (canon v).getD i 0) →
      varintDecode buf 0 (canon v).length = .ok v (canon v).length)

/-- 40_varint.md R108, R109: VARINT_SIZE writes the size of `VIN`'s row of the table, and nothing else; every 64-bit
value is in a row; its word is 0x11. -/
def Obligations.VarintSizeFollowsTheTable : Prop :=
  decode 0x0000000000000011 = .ok .varintSize ∧
  (∀ m : Word, ∃ row ∈ packedSizeTable, row.1 ≤ m.toNat ∧ m.toNat ≤ row.2.1) ∧
  ∀ (s : State), ∀ row ∈ packedSizeTable, row.1 ≤ s.vin.toNat → s.vin.toNat ≤ row.2.1 →
    exec .varintSize s = .next (State.ended { s with vsize := BitVec.ofNat 64 row.2.2 } .ok)

/-- 40_varint.md R110: the packed size is the canonical length below 2^56; from there on it stays 8 while the canonical
length is 9, and 10 from 2^63 on. -/
def Obligations.PackedSizeAgainstCanonicalLength : Prop :=
  ∀ m : Word, (m.toNat < 2 ^ 56 → packedSize m = (canon m).length) ∧
    (2 ^ 56 ≤ m.toNat → m.toNat < 2 ^ 63 → (canon m).length = 9 ∧ packedSize m = 8) ∧
    (2 ^ 63 ≤ m.toNat → (canon m).length = 10 ∧ packedSize m = 8)

/-! What holds of every command -/

/-- The frame of memory: no command writes `MB` or `VBUF` (R24, R26): every byte reads as before. -/
def Obligations.NoCommandWritesTheBuffers : Prop :=
  ∀ (i : Instr) (s t : State), exec i s = .next t → ∀ a, t.readByte a = s.readByte a

/-- The frame of the two units (R84, R243): varint commands leave `S` and `D`, Keccak commands leave the varint
registers, each writes only its own results; `VLEN`, `VIN`, `CMD` and the configuration stay. -/
def Obligations.CommandsWriteOnlyTheirOwnUnit : Prop :=
  ∀ (i : Instr) (s t : State), exec i s = .next t →
    (i ∉ [Instr.keccakInit, .keccakPerm, .keccakAbsorb] → (∀ len, i ≠ .keccakAbsorbFinal len) → t.lanes = s.lanes) ∧
    (i ≠ .keccakSqueeze → t.digest = s.digest) ∧
    (i ≠ .varintUnpack → t.vval = s.vval ∧ t.vcnt = s.vcnt ∧ t.voff = s.voff) ∧
    (i ≠ .varintSize → t.vsize = s.vsize) ∧
    (i ≠ .nop → t.herr = s.herr) ∧
    t.vlen = s.vlen ∧ t.vin = s.vin ∧ t.cmd = s.cmd ∧ t.cfg = s.cfg

/-- Every command that completes leaves `BUSY` 0, `DONE` 1 and a code that the block raises, whatever its outcome
(R35, R36, R201). -/
def Obligations.CommandsCompleteWithAnOutcome : Prop :=
  ∀ (i : Instr) (s t : State), exec i s = .next t →
    t.busy = false ∧ t.done = true ∧ t.err.code ∈ ([0x00, 0x02, 0x10] : List Byte)

/-- 60_exceptions.md R204: a command that ends with a nonzero code has changed nothing but its outcome. -/
def Obligations.ErrorsArePrecise : Prop :=
  ∀ (i : Instr) (s t : State), exec i s = .next t → t.err.code ≠ 0x00 → t = State.ended s t.err

/-- 60_exceptions.md R205: after a failed VARINT_UNPACK, one issued in any state with the same `VBUF`, `VLEN` and `VOFF`
fails again with the same code. -/
def Obligations.FailedDecodeFailsAgain : Prop :=
  ∀ s t u : State, exec .varintUnpack s = .next t → t.err = .malformedVarint →
    u.cfg = t.cfg → u.vlen = t.vlen → u.voff = t.voff → (∀ i, u.vbufByte i = t.vbufByte i) →
    exec .varintUnpack u = .next (State.ended u .malformedVarint)

/-! The host port -/

/-- 20_memory.md R59: which accesses are refused, and that a refused access sets `HERR` and nothing else, a refused
read returning 0. -/
def Obligations.RefusedAccessesAreTheList : Prop :=
  (∀ (s : State) (a n : Nat), s.refused a n .read = true ↔ ¬ legalAccess s.cfg a n) ∧
  (∀ (s : State) (a n : Nat) (v : Word), s.refused a n (.write v) = true ↔
    (s.busy = true ∨ ¬ legalAccess s.cfg a n ∨ readOnlyOffset a ∨
      (a = 0x10 ∧ (s.cfg.vbufBytes < v.toNat ∨ v.toNat < s.voff.toNat)) ∨ (a = 0x18 ∧ s.vlen.toNat < v.toNat))) ∧
  (∀ (s : State) (a n : Nat), s.inReset = false → s.refused a n .read = true →
    s.memRead a n = (0, { s with herr := true })) ∧
  (∀ (s : State) (a n : Nat) (v : Word), s.inReset = false → s.refused a n (.write v) = true →
    s.memWrite a n v = { s with herr := true })

/-- 10_state.md R40: an accepted write to `CMD`. -/
def Obligations.CommandWriteIsAccepted : Prop :=
  (∀ (s : State) (w : Word), s.inReset = false → s.pend = none →
    s.memWrite 0x0000 8 w = { s with cmd := w, pend := some w, done := false, err := .ok }) ∧
  ∀ s : State, s.statusWord.getLsbD 0 = s.pend.isSome

/-- 10_state.md R27, R28: writes to `VLEN` and `VOFF` while idle: taken if legal, else `HERR` and the register kept; both
registers read back, and no command writes `VLEN`. -/
def Obligations.CursorWritesKeepTheInvariant : Prop :=
  (∀ (s : State) (v : Word), s.inReset = false → s.pend = none →
    s.memWrite 0x0010 8 v =
      (if s.cfg.vbufBytes < v.toNat ∨ v.toNat < s.voff.toNat then { s with herr := true } else { s with vlen := v }) ∧
    s.memWrite 0x0018 8 v =
      (if s.vlen.toNat < v.toNat then { s with herr := true } else { s with voff := v }) ∧
    s.memRead 0x0010 8 = (s.vlen, s) ∧ s.memRead 0x0018 8 = (s.voff, s)) ∧
  ∀ (i : Instr) (s t : State), exec i s = .next t → t.vlen = s.vlen

/-- A read after an accepted write to the same place returns the value written, with every width (R52 to R54). -/
def Obligations.ReadAfterWriteReturnsTheValue : Prop :=
  ∀ (s : State) (a n : Nat) (v : Word), s.inReset = false → s.refused a n (.write v) = false →
    (s.memWrite a n v).memRead a n = (leCompose (wordByte v) n, s.memWrite a n v)

/-- The frame of a host write (R54): every byte of `MB`, `VBUF` and `S` outside the n bytes at a stays, and no write
touches `D`, `VVAL`, `VCNT`, `VSIZE`, the configuration or the reset input. An accepted write leaves `HERR` (R59). -/
def Obligations.WriteChangesOnlyItsBytes : Prop :=
  ∀ (s : State) (a n : Nat) (v : Word),
    (∀ b, ¬ (a ≤ b ∧ b < a + n) → (s.memWrite a n v).readByte b = s.readByte b) ∧
    (∀ k < 200, ¬ (a ≤ 0x0100 + k ∧ 0x0100 + k < a + n) → laneByte (s.memWrite a n v).lanes k = laneByte s.lanes k) ∧
    (s.memWrite a n v).digest = s.digest ∧ (s.memWrite a n v).vval = s.vval ∧ (s.memWrite a n v).vcnt = s.vcnt ∧
    (s.memWrite a n v).vsize = s.vsize ∧ (s.memWrite a n v).cfg = s.cfg ∧
    (a ≠ 0x10 → (s.memWrite a n v).vlen = s.vlen) ∧ (a ≠ 0x18 → (s.memWrite a n v).voff = s.voff) ∧
    (a ≠ 0x30 → (s.memWrite a n v).vin = s.vin) ∧
    (a ≠ 0x00 → (s.memWrite a n v).pend = s.pend ∧ (s.memWrite a n v).cmd = s.cmd ∧
      (s.memWrite a n v).done = s.done ∧ (s.memWrite a n v).err = s.err) ∧
    (s.refused a n (.write v) = false → (s.memWrite a n v).herr = s.herr) ∧
    (s.memWrite a n v).inReset = s.inReset

/-- 20_memory.md R53: a read has no side effect but the `HERR` of a refused one; the count of free values drawn is the
model's own (log entry 5). -/
def Obligations.ReadsHaveNoSideEffect : Prop :=
  ∀ (s : State) (a n : Nat), (s.memRead a n).2 = s ∨
    ((s.memRead a n).2 = { s with herr := true } ∧ s.refused a n .read = true) ∨
    ((s.memRead a n).2 = { s with draws := s.draws + 1 } ∧ (s.busy = true ∨ s.inReset = true))

/-- 20_memory.md R58: accesses while a command is pending. "Any value" is the model's free value (log entry 5). -/
def Obligations.AccessesWhileBusy : Prop :=
  ∀ s : State, s.Inv → s.busy = true → s.inReset = false →
    (∀ a n v, s.memWrite a n v = { s with herr := true }) ∧
    ((s.memRead 0x0008 8).1.getLsbD 0 = true ∧ (s.memRead 0x0008 8).1.getLsbD 1 = false ∧
      (s.memRead 0x0008 8).1.getLsbD 2 = (Config.drawnRead s.draws).getLsbD 0 ∧
      (s.memRead 0x0008 8).1.getLsbD 3 = s.herr ∧ (s.memRead 0x0008 8).1.extractLsb' 8 8 = 0) ∧
    (∀ a n, legalAccess s.cfg a n →
      ((0x0100 ≤ a ∧ a < 0x01C8) ∨ (0x0300 ≤ a ∧ a < 0x0320) ∨ a = 0x18 ∨ a = 0x20 ∨ a = 0x28 ∨ a = 0x38) →
      (s.memRead a n).1 = leCompose (wordByte (Config.drawnRead s.draws)) n) ∧
    (s.memRead 0x0000 8 = (s.cmd, s) ∧ s.memRead 0x0010 8 = (s.vlen, s) ∧ s.memRead 0x0030 8 = (s.vin, s)) ∧
    (∀ a n, legalAccess s.cfg a n → ((0x0200 ≤ a ∧ a < 0x0288) ∨ 0x8000 ≤ a) →
      s.memRead a n = (leCompose (fun k => s.readByte (a + k)) n, s))

/-- The window onto `S` (R23, R52): while idle an 8-byte read at 0x0100 + 8*i returns lane i, and a 1-byte read at
0x0100 + k its byte k mod 8 of lane k div 8. -/
def Obligations.LaneWindowIsLittleEndian : Prop :=
  ∀ s : State, s.inReset = false → s.pend = none →
    (∀ i : Fin 25, s.memRead (0x0100 + 8 * i.val) 8 = (s.lanes[i], s)) ∧
    (∀ (k : Nat) (h : k / 8 < 25), s.memRead (0x0100 + k) 1 = ((wordByte s.lanes[k / 8] (k % 8)).setWidth 64, s))

/-- 10_state.md R34: the fields of `STATUS`, the reserved bits 0, the codes that appear, a read while idle, and a host
write to it refused. -/
def Obligations.StatusFieldsAreInPlace : Prop :=
  ∀ s : State, s.statusWord.getLsbD 0 = s.busy ∧ s.statusWord.getLsbD 1 = s.done ∧
    s.statusWord.getLsbD 2 = decide (s.voff = s.vlen) ∧ s.statusWord.getLsbD 3 = s.herr ∧
    s.statusWord.extractLsb' 4 4 = 0 ∧ s.statusWord.extractLsb' 8 8 = s.err.code ∧ s.statusWord.extractLsb' 16 48 = 0 ∧
    (s.Inv → s.err.code ∈ ([0x00, 0x02, 0x10] : List Byte)) ∧
    (s.inReset = false → s.pend = none → s.memRead 0x0008 8 = (s.statusWord, s)) ∧
    (s.inReset = false → ∀ v, s.memWrite 0x0008 8 v = { s with herr := true })

/-- 10_state.md R37: a read of `STATUS` while idle shows `EOF` exactly when `VOFF = VLEN` at the read. -/
def Obligations.EofFollowsTheCursor : Prop :=
  ∀ s : State, s.inReset = false → s.pend = none →
    ((s.memRead 0x0008 8).1.getLsbD 2 = true ↔ s.voff = s.vlen)

/-! Whole-machine rules -/

/-- 10_state.md R38: `HERR` is set by every refused access, and only reset or a completed NOP clears it. -/
def Obligations.HerrIsSticky : Prop :=
  (∀ (s : State) (a n : Nat), s.inReset = false → s.refused a n .read = true → (s.memRead a n).2.herr = true) ∧
  (∀ (s : State) (a n : Nat) (v : Word), s.inReset = false → s.refused a n (.write v) = true →
    (s.memWrite a n v).herr = true) ∧
  ∀ s t : State, step s = .next t → s.herr = true → t.herr = false →
    s.nextTurn = .assertReset ∨ (s.nextTurn = .engine ∧ s.pend = some 0)

/-- Who changes the Keccak state and the digest (R20, R25): the lanes change only by reset, by a host write into their
window while idle, or by a Keccak command other than the squeeze; `D` only by reset or by KECCAK_SQUEEZE. -/
def Obligations.LanesAndDigestChangeOnlyByTheirWriters : Prop :=
  ∀ s t : State, step s = .next t →
    (t.lanes ≠ s.lanes → s.nextTurn = .assertReset ∨
      (s.nextTurn = .host ∧ s.busy = false ∧ ∃ a n v rest off, s.script = .wr a n v :: rest ∧
        portOffset? s.cfg a = some off ∧ 0x0100 ≤ off ∧ off < 0x01C8) ∨
      (s.nextTurn = .engine ∧ ∃ w i, s.pend = some w ∧ decode w = .ok i ∧
        (i = .keccakInit ∨ i = .keccakPerm ∨ i = .keccakAbsorb ∨ ∃ len, i = .keccakAbsorbFinal len))) ∧
    (t.digest ≠ s.digest → s.nextTurn = .assertReset ∨
      (s.nextTurn = .engine ∧ s.pend = some (encode .keccakSqueeze)))

/-- The host's move performs its next statement (R87, R88): `rd` makes the read and records its value, `wr` makes the
write, `wait` reads `STATUS` and goes on once `BUSY` is 0. The access is made on the state less the move taken off. The
script and the turns are the model's own (log entry 1). -/
def Obligations.HostPerformsItsNextStatement : Prop :=
  ∀ (s u : State) (rest : List HostStmt), s.nextTurn = .host → u = { s with turns := s.turns.tail } →
    (∀ addr n off, s.script = .rd addr n :: rest → portOffset? s.cfg addr = some off →
      step s = .next { (u.memRead off n).2 with
        script := rest, results := (u.memRead off n).2.results ++ [(u.memRead off n).1] }) ∧
    (∀ addr n v off, s.script = .wr addr n v :: rest → portOffset? s.cfg addr = some off →
      step s = .next { u.memWrite off n v with script := rest }) ∧
    (s.script = .wait :: rest → s.inReset = false →
      ∃ t, step s = .next t ∧ t.script = if s.busy then s.script else rest)

/-- A pending command is performed by the engine's next move (R200): with no other move listed, one step ends it with
`DONE` 1. The rule that the engine moves then is the model's choice (log entry 1). -/
def Obligations.PendingCommandCompletes : Prop :=
  ∀ (s : State) (w : Word), s.Inv → s.turns = [] → s.pend = some w →
    ∃ t, step s = .next t ∧ t.busy = false ∧ t.done = true ∧ t.cmd = w

/-- 20_memory.md R53: what a read returns while idle and out of reset, at every place of the map (R51): each register its
value, each byte of a buffer at its own place in the value, lowest offset least significant, zeros above. The state
stays. -/
def Obligations.IdleReadsReturnTheState : Prop :=
  ∀ s : State, s.inReset = false → s.pend = none →
    (s.memRead 0x0000 8 = (s.cmd, s) ∧ s.memRead 0x0008 8 = (s.statusWord, s) ∧ s.memRead 0x0010 8 = (s.vlen, s) ∧
      s.memRead 0x0018 8 = (s.voff, s) ∧ s.memRead 0x0020 8 = (s.vval, s) ∧ s.memRead 0x0028 8 = (s.vcnt, s) ∧
      s.memRead 0x0030 8 = (s.vin, s) ∧ s.memRead 0x0038 8 = (s.vsize, s)) ∧
    ∀ a n, legalAccess s.cfg a n → 0x0100 ≤ a → (s.memRead a n).2 = s ∧
      (∀ k < 8, n ≤ k → wordByte (s.memRead a n).1 k = 0) ∧
      (a < 0x01C8 → ∀ k < n, ∀ h : (a - 0x0100 + k) / 8 < 25,
        wordByte (s.memRead a n).1 k = wordByte s.lanes[(a - 0x0100 + k) / 8] ((a - 0x0100 + k) % 8)) ∧
      (0x0300 ≤ a → a < 0x0320 → ∀ k < n, ∀ h : a - 0x0300 + k < 32,
        wordByte (s.memRead a n).1 k = s.digest[a - 0x0300 + k]) ∧
      (0x0200 ≤ a → a < 0x0288 → ∀ k < n, wordByte (s.memRead a n).1 k = s.mbByte (a - 0x0200 + k)) ∧
      (0x8000 ≤ a → ∀ k < n, wordByte (s.memRead a n).1 k = s.vbufByte (a - 0x8000 + k))
end

