-- ==== Sys2Proof/Laws/Bits.lean ====
section
/-! SUPPORT. The laws of the byte order and of the window onto the Keccak state. -/

namespace Sys2Proof

/-- Bit `i` of a byte of a word. -/
theorem getLsbD_wordByte (v : Word) (k i : Nat) : (wordByte v k).getLsbD i = (decide (i < 8) && v.getLsbD (8 * k + i)) := by
  simp [wordByte]

/-- Bit `i` of a little-endian composition. -/
theorem getLsbD_leCompose (b : Nat → Byte) (n i : Nat) :
    (leCompose b n).getLsbD i = (decide (i < 64) && decide (i < 8 * n) && (b (i / 8)).getLsbD (i % 8)) := by
  induction n with
  | zero => simp [leCompose]
  | succ n ih =>
    simp only [leCompose, BitVec.getLsbD_or, ih, BitVec.getLsbD_shiftLeft, BitVec.getLsbD_setWidth]
    by_cases h64 : i < 64
    · by_cases hn : i < 8 * n
      · have : i < 8 * (n + 1) := by omega
        simp [h64, hn, this]
      · by_cases hn1 : i < 8 * (n + 1)
        · have hd : i / 8 = n := by omega
          have hm : i % 8 = i - 8 * n := by omega
          have hlt : i - 8 * n < 64 := by omega
          simp [h64, hn, hn1, hd, hm, hlt]
        · have hge : 8 ≤ i - 8 * n := by omega
          simp [h64, hn, hn1, BitVec.getLsbD_of_ge _ _ hge]
    · simp [h64]

/-- Byte `k` of a little-endian composition is the byte composed there. -/
theorem wordByte_leCompose (b : Nat → Byte) {n k : Nat} (hk : k < n) (h8 : k < 8) :
    wordByte (leCompose b n) k = b k := by
  apply BitVec.eq_of_getLsbD_eq
  intro i hi
  have h1 : 8 * k + i < 64 := by omega
  have h2 : 8 * k + i < 8 * n := by omega
  have h3 : (8 * k + i) / 8 = k := by omega
  have h4 : (8 * k + i) % 8 = i := by omega
  rw [getLsbD_wordByte, getLsbD_leCompose, h3, h4]
  simp [hi, h1, h2]

/-- A word is the little-endian composition of its bytes (R8). -/
theorem le64_wordByte (v : Word) : le64 (wordByte v) = v := by
  apply BitVec.eq_of_getLsbD_eq
  intro i hi
  have h1 : i < 8 * 8 := by omega
  have h2 : 8 * (i / 8) + i % 8 = i := by omega
  rw [le64, getLsbD_leCompose, getLsbD_wordByte, h2]
  have h3 : i % 8 < 8 := Nat.mod_lt _ (by decide)
  simp [hi, h3]

/-- The composition reads only the bytes it composes. -/
theorem leCompose_congr {b c : Nat → Byte} {n : Nat} (h : ∀ k < n, b k = c k) : leCompose b n = leCompose c n := by
  induction n with
  | zero => rfl
  | succ n ih => simp only [leCompose, ih fun k hk => h k (by omega), h n (by omega)]

/-- Decoding from the bytes of a word is decoding the word. -/
theorem decodeBytes_wordBytes (w : Word) (rest : List Byte) :
    decodeBytes (wordBytes w ++ rest) = (decode w).map fun i => (i, rest) := by
  have hb : (fun k => [wordByte w 0, wordByte w 1, wordByte w 2, wordByte w 3, wordByte w 4, wordByte w 5,
      wordByte w 6, wordByte w 7].getD k 0) = fun k => if k < 8 then wordByte w k else 0 := by
    funext k
    match k with
    | 0 | 1 | 2 | 3 | 4 | 5 | 6 | 7 => rfl
    | k + 8 => simp
  have hw : wordBytes w = [wordByte w 0, wordByte w 1, wordByte w 2, wordByte w 3, wordByte w 4, wordByte w 5,
      wordByte w 6, wordByte w 7] := rfl
  have hl : le64 (fun k => if k < 8 then wordByte w k else 0) = w := by
    rw [le64, leCompose_congr (c := wordByte w) fun k hk => if_pos hk]; exact le64_wordByte w
  rw [hw]
  simp only [List.cons_append, List.nil_append, decodeBytes, hb, hl]
  cases decode w <;> rfl

end Sys2Proof

namespace Sys2Proof.Machine

/-- Byte `j` of a word with byte `k` replaced. -/
theorem wordByte_setWordByte (v : Word) {k j : Nat} (b : Byte) (hk : k < 8) (hj : j < 8) :
    wordByte (setWordByte v k b) j = if j = k then b else wordByte v j := by
  apply BitVec.eq_of_getLsbD_eq
  intro i hi
  have hji : 8 * j + i < 64 := by omega
  have hff : ∀ n, (0xFF : Word).getLsbD n = decide (n < 8) := by
    intro n
    by_cases hn : n < 64
    · interval_cases n <;> rfl
    · rw [BitVec.getLsbD_of_ge _ _ (by omega)]; simp; omega
  rw [getLsbD_wordByte]
  simp only [setWordByte, BitVec.getLsbD_or, BitVec.getLsbD_and, BitVec.getLsbD_not, BitVec.getLsbD_shiftLeft,
    BitVec.getLsbD_setWidth, hff, hji]
  by_cases h : j = k
  · subst h
    have : 8 * j + i - 8 * j = i := by omega
    have h2 : i < 64 := by omega
    simp [hi, this, h2]
  · rw [if_neg h, getLsbD_wordByte]
    rcases Nat.lt_or_gt_of_ne h with hlt | hgt
    · have h1 : 8 * j + i < 8 * k := by omega
      simp [hi, h1]
    · have h1 : ¬ 8 * j + i < 8 * k := by omega
      have h2 : 8 ≤ 8 * j + i - 8 * k := by omega
      have h3 : ¬ 8 * j + i - 8 * k < 8 := by omega
      simp [hi, h1, h3, BitVec.getLsbD_of_ge b _ h2]

/-- Byte `j` of the window onto `S` after byte `k` is replaced. -/
theorem laneByte_setLaneByte (A : Lanes) {k j : Nat} (b : Byte) (hk : k < 200) (hj : j < 200) :
    laneByte (setLaneByte A k b) j = if j = k then b else laneByte A j := by
  have h1 : k / 8 < 25 := by omega
  have h2 : j / 8 < 25 := by omega
  simp only [laneByte, setLaneByte, h1, h2, dite_true, Vector.getElem_set]
  by_cases h : k / 8 = j / 8
  · rw [if_pos h, wordByte_setWordByte _ _ (Nat.mod_lt _ (by decide)) (Nat.mod_lt _ (by decide))]
    by_cases hm : j % 8 = k % 8
    · rw [if_pos hm, if_pos (by omega)]
    · rw [if_neg hm, if_neg (fun e => hm (by rw [e]))]; simp [h]
  · rw [if_neg h, if_neg (fun e => h (by rw [e]))]

/-- Byte `j` of the window onto `S` after `n` bytes from `k` on are replaced. -/
theorem laneByte_setLaneBytes (A : Lanes) (v : Word) {k n j : Nat} (hk : k + n ≤ 200) (hj : j < 200) :
    laneByte (setLaneBytes A k v n) j = if k ≤ j ∧ j < k + n then wordByte v (j - k) else laneByte A j := by
  induction n with
  | zero => simp only [setLaneBytes]; rw [if_neg (by omega)]
  | succ n ih =>
    rw [setLaneBytes, laneByte_setLaneByte _ _ (by omega) hj, ih (by omega)]
    by_cases hb : j = k + n
    · subst hb; simp
    · by_cases hr : k ≤ j ∧ j < k + n
      · rw [if_neg hb, if_pos hr, if_pos ⟨hr.1, by omega⟩]
      · rw [if_neg hb, if_neg hr, if_neg (by omega)]

end Sys2Proof.Machine
end

