-- ==== Sys2Proof/Laws/Keccak.lean ====
section
/-! SUPPORT. Lanes by coordinate and by number: one lemma per builder of a Keccak state. -/

namespace Sys2Proof.Machine

@[simp] theorem lane_ofColumnRow (f : Fin 5 → Fin 5 → Word) (x y : Fin 5) : lane (ofColumnRow f) x y = f x y := by
  fin_cases x <;> fin_cases y <;> rfl

@[simp] theorem getElem_ofColumn (f : Fin 5 → Word) (x : Fin 5) : (ofColumn f)[x.val] = f x := by
  fin_cases x <;> rfl

/-- Lanes equal at every coordinate are equal states. -/
theorem lanes_ext_coordinates {A B : Lanes} (h : ∀ x y, lane A x y = lane B x y) : A = B := by
  apply Vector.ext
  intro i hi
  have hx : i % 5 < 5 := Nat.mod_lt _ (by decide)
  have hy : i / 5 < 5 := by omega
  have hxy := h ⟨i % 5, hx⟩ ⟨i / 5, hy⟩
  simpa only [lane, Nat.mod_add_div] using hxy

/-- The permutation is its rounds (41_keccak_permutation.md R131). -/
theorem keccakF_eq_foldl (A : Lanes) : keccakF A = roundConstants.foldl keccakRound A := by
  rw [keccakF]

/-- A byte of a squeeze (42_keccak_sponge.md R166). -/
theorem getElem_squeezeBytes (A : Lanes) (j : Fin 32) : (squeezeBytes A)[j] = laneByte A j.val := by
  rw [squeezeBytes]
  exact Vector.getElem_ofFn j.isLt

/-- A rate lane after a block is XORed in (42_keccak_sponge.md R162). -/
theorem getElem_xorBlock_rate (A : Lanes) (P : Nat → Byte) (i : Fin 25) (h : i.val < 17) :
    (xorBlock A P)[i] = A[i] ^^^ blockLane P i.val := by
  fin_cases i <;> first | rfl | exact absurd h (by decide)

/-- A capacity lane after a block is XORed in (42_keccak_sponge.md R161). -/
theorem getElem_xorBlock_capacity (A : Lanes) (P : Nat → Byte) (i : Fin 25) (h : 17 ≤ i.val) :
    (xorBlock A P)[i] = A[i] := by
  fin_cases i <;> first | rfl | exact absurd h (by decide)

/-- XORing a block in reads the block's 136 bytes and no others. -/
theorem xorBlock_congr (A : Lanes) {P Q : Nat → Byte} (h : ∀ j < 136, P j = Q j) : xorBlock A P = xorBlock A Q := by
  have hl : ∀ i < 17, blockLane P i = blockLane Q i := by
    intro i hi
    have hb : (fun k => P (8 * i + k)) = fun k => if k < 8 then Q (8 * i + k) else P (8 * i + k) := by
      funext k
      by_cases hk : k < 8
      · rw [if_pos hk, h _ (by omega)]
      · rw [if_neg hk]
    simp only [blockLane, le64]
    rw [hb]
    simp only [leCompose, show (0:Nat) < 8 by decide, show (1:Nat) < 8 by decide, show (2:Nat) < 8 by decide,
      show (3:Nat) < 8 by decide, show (4:Nat) < 8 by decide, show (5:Nat) < 8 by decide,
      show (6:Nat) < 8 by decide, show (7:Nat) < 8 by decide, if_true]
  simp [xorBlock, hl]

end Sys2Proof.Machine
end

