-- ==== Sys2Proof/Laws/Memory.lean ====
section
/-! SUPPORT. The laws of the sparse memory: what a read finds after a store, that a store keeps the canonical form, and
that equal contents are equal data. -/

namespace Sys2Proof.Machine

theorem Memory.look_store (m : Memory) (a b : Nat) (v : Byte) :
    (m.store a v).look b = if b = a then some v else m.look b := by
  induction m with
  | nil => simp [Memory.store, Memory.look]
  | cons c m ih =>
    obtain ⟨k, w⟩ := c
    by_cases h1 : a < k
    · simp only [Memory.store, if_pos h1, Memory.look]
    · by_cases h2 : a = k
      · subst h2
        simp only [Memory.store, if_neg h1, if_true, Memory.look]
        split_ifs <;> rfl
      · simp only [Memory.store, if_neg h1, if_neg h2, Memory.look, ih]
        by_cases h3 : b = k
        · rw [if_pos h3, if_neg (by omega)]; simp [h3]
        · rw [if_neg h3]; simp [h3]

@[simp] theorem Memory.look_store_same (m : Memory) (a : Nat) (v : Byte) : (m.store a v).look a = some v := by
  simp [Memory.look_store]

theorem Memory.look_store_other (m : Memory) {a b : Nat} (v : Byte) (h : b ≠ a) :
    (m.store a v).look b = m.look b := by
  simp [Memory.look_store, h]

/-- What a store lists: the new byte and bytes that were listed. -/
theorem Memory.mem_store {m : Memory} {a : Nat} {v : Byte} {c : Host.Cell} (h : c ∈ m.store a v) :
    c = (a, v) ∨ c ∈ m := by
  induction m with
  | nil => simpa [Memory.store] using h
  | cons d m ih =>
    obtain ⟨k, w⟩ := d
    simp only [Memory.store] at h
    split_ifs at h with h1 h2
    · rcases List.mem_cons.1 h with h | h
      · exact .inl h
      · exact .inr h
    · rcases List.mem_cons.1 h with h | h
      · exact .inl h
      · exact .inr (List.mem_cons_of_mem _ h)
    · rcases List.mem_cons.1 h with h | h
      · exact .inr (h ▸ List.mem_cons_self)
      · exact (ih h).imp_right (List.mem_cons_of_mem _)

/-- A store keeps the canonical form. -/
theorem Memory.store_wf {m : Memory} (h : m.wf) (a : Nat) (v : Byte) : (m.store a v).wf := by
  induction m with
  | nil => simp [Memory.store, Memory.wf]
  | cons d m ih =>
    obtain ⟨k, w⟩ := d
    obtain ⟨hd, ht⟩ := List.pairwise_cons.1 h
    simp only [Memory.store]
    split_ifs with h1 h2
    · refine List.pairwise_cons.2 ⟨fun c hc => ?_, h⟩
      rcases List.mem_cons.1 hc with rfl | hc
      · exact h1
      · exact lt_trans h1 (hd c hc)
    · subst h2; exact List.pairwise_cons.2 ⟨hd, ht⟩
    · refine List.pairwise_cons.2 ⟨fun c hc => ?_, ih ht⟩
      rcases Memory.mem_store hc with rfl | hc
      · show k < a; omega
      · exact hd c hc

theorem Memory.storeBytes_wf {m : Memory} (h : m.wf) (a : Nat) (v : Word) (n : Nat) :
    (m.storeBytes a v n).wf := by
  induction n with
  | zero => exact h
  | succ n ih => exact Memory.store_wf ih _ _

/-- What a store of `n` bytes lists: bytes of its range and bytes that were listed. -/
theorem Memory.mem_storeBytes {m : Memory} {a : Nat} {v : Word} {n : Nat} {c : Host.Cell}
    (h : c ∈ m.storeBytes a v n) : (a ≤ c.1 ∧ c.1 < a + n) ∨ c ∈ m := by
  induction n with
  | zero => exact .inr h
  | succ n ih =>
    rcases Memory.mem_store h with rfl | h
    · exact .inl ⟨by simp, by simp⟩
    · rcases ih h with h | h
      · exact .inl ⟨h.1, by omega⟩
      · exact .inr h

/-- A read after a store of `n` bytes. -/
theorem Memory.look_storeBytes (m : Memory) (a : Nat) (v : Word) (n b : Nat) :
    (m.storeBytes a v n).look b = if a ≤ b ∧ b < a + n then some (wordByte v (b - a)) else m.look b := by
  induction n with
  | zero => simp only [Memory.storeBytes]; rw [if_neg (by omega)]
  | succ n ih =>
    simp only [Memory.storeBytes, Memory.look_store, ih]
    by_cases hb : b = a + n
    · subst hb; simp
    · by_cases hr : a ≤ b ∧ b < a + n
      · rw [if_neg hb, if_pos hr, if_pos ⟨hr.1, by omega⟩]
      · rw [if_neg hb, if_neg hr, if_neg (by omega)]

theorem Memory.look_eq_none_of_lt {m : Memory} {a : Nat} (h : ∀ c ∈ m, a < c.1) : m.look a = none := by
  induction m with
  | nil => rfl
  | cons d m ih =>
    have hd := h d List.mem_cons_self
    simp only [Memory.look, if_neg (Nat.ne_of_lt hd)]
    exact ih fun c hc => h c (List.mem_cons_of_mem _ hc)

/-- Memories in canonical form with the same bytes listed are equal data. -/
theorem Memory.ext_of_look {m n : Memory} (hm : m.wf) (hn : n.wf) (h : ∀ a, m.look a = n.look a) : m = n := by
  induction m generalizing n with
  | nil =>
    cases n with
    | nil => rfl
    | cons d n => simpa [Memory.look] using h d.1
  | cons c m ih =>
    obtain ⟨k, v⟩ := c
    obtain ⟨hkm, hm'⟩ := List.pairwise_cons.1 hm
    cases n with
    | nil => simpa [Memory.look] using h k
    | cons d n =>
      obtain ⟨l, w⟩ := d
      obtain ⟨hln, hn'⟩ := List.pairwise_cons.1 hn
      have hkl : k = l := by
        rcases Nat.lt_trichotomy k l with hlt | heq | hgt
        · have h1 := h k
          rw [Memory.look_eq_none_of_lt (m := (l, w) :: n)
            (by rintro c hc; rcases List.mem_cons.1 hc with rfl | hc; exacts [hlt, lt_trans hlt (hln c hc)])] at h1
          simp [Memory.look] at h1
        · exact heq
        · have h1 := h l
          rw [Memory.look_eq_none_of_lt (m := (k, v) :: m)
            (by rintro c hc; rcases List.mem_cons.1 hc with rfl | hc; exacts [hgt, lt_trans hgt (hkm c hc)])] at h1
          simp [Memory.look] at h1
      subst hkl
      have hvw : v = w := by simpa [Memory.look] using h k
      subst hvw
      congr 1
      refine ih hm' hn' fun a => ?_
      have ha := h a
      simp only [Memory.look] at ha
      split_ifs at ha with hak
      · subst hak
        rw [Memory.look_eq_none_of_lt hkm, Memory.look_eq_none_of_lt hln]
      · exact ha

theorem reset_memory_wf : State.reset.mem.wf := by decide

/-- A byte of the state after a store of `n` bytes. -/
theorem State.readByte_storeBytes (s : State) (a : Nat) (v : Word) (n b : Nat) :
    ({ s with mem := s.mem.storeBytes a v n } : State).readByte b =
      if a ≤ b ∧ b < a + n then wordByte v (b - a) else s.readByte b := by
  simp only [State.readByte, Memory.look_storeBytes]
  split_ifs <;> rfl

end Sys2Proof.Machine
end

