-- ==== Sys2Proof/Laws/State.lean ====
section
/-! SUPPORT. What every named update of the state does to each field: true by unfolding, said once. -/

namespace Sys2Proof.Machine

/-! The end of an engine step (60_exceptions.md R200). -/

@[simp] theorem State.finish_lanes (s : State) (c : ErrCode) : (s.finish c).lanes = s.lanes := rfl
@[simp] theorem State.finish_mem (s : State) (c : ErrCode) : (s.finish c).mem = s.mem := rfl
@[simp] theorem State.finish_digest (s : State) (c : ErrCode) : (s.finish c).digest = s.digest := rfl
@[simp] theorem State.finish_vlen (s : State) (c : ErrCode) : (s.finish c).vlen = s.vlen := rfl
@[simp] theorem State.finish_voff (s : State) (c : ErrCode) : (s.finish c).voff = s.voff := rfl
@[simp] theorem State.finish_vval (s : State) (c : ErrCode) : (s.finish c).vval = s.vval := rfl
@[simp] theorem State.finish_vcnt (s : State) (c : ErrCode) : (s.finish c).vcnt = s.vcnt := rfl
@[simp] theorem State.finish_vin (s : State) (c : ErrCode) : (s.finish c).vin = s.vin := rfl
@[simp] theorem State.finish_vsize (s : State) (c : ErrCode) : (s.finish c).vsize = s.vsize := rfl
@[simp] theorem State.finish_cmd (s : State) (c : ErrCode) : (s.finish c).cmd = s.cmd := rfl
@[simp] theorem State.finish_done (s : State) (c : ErrCode) : (s.finish c).done = true := rfl
@[simp] theorem State.finish_herr (s : State) (c : ErrCode) : (s.finish c).herr = s.herr := rfl
@[simp] theorem State.finish_err (s : State) (c : ErrCode) : (s.finish c).err = c := rfl
@[simp] theorem State.finish_pend (s : State) (c : ErrCode) : (s.finish c).pend = none := rfl
@[simp] theorem State.finish_inReset (s : State) (c : ErrCode) : (s.finish c).inReset = s.inReset := rfl
@[simp] theorem State.finish_cfg (s : State) (c : ErrCode) : (s.finish c).cfg = s.cfg := rfl
@[simp] theorem State.finish_resetDraw (s : State) (c : ErrCode) : (s.finish c).resetDraw = s.resetDraw := rfl
@[simp] theorem State.finish_draws (s : State) (c : ErrCode) : (s.finish c).draws = s.draws := rfl
@[simp] theorem State.finish_script (s : State) (c : ErrCode) : (s.finish c).script = s.script := rfl
@[simp] theorem State.finish_turns (s : State) (c : ErrCode) : (s.finish c).turns = s.turns := rfl
@[simp] theorem State.finish_results (s : State) (c : ErrCode) : (s.finish c).results = s.results := rfl

@[simp] theorem State.complete_eq (s : State) : s.complete = s.finish .ok := rfl
@[simp] theorem State.raise_eq (s : State) (e : ErrCode) : s.raise e = s.finish e := rfl

/-! A command is accepted (10_state.md R40). -/

@[simp] theorem State.acceptCommand_lanes (s : State) (w : Word) : (s.acceptCommand w).lanes = s.lanes := rfl
@[simp] theorem State.acceptCommand_mem (s : State) (w : Word) : (s.acceptCommand w).mem = s.mem := rfl
@[simp] theorem State.acceptCommand_digest (s : State) (w : Word) : (s.acceptCommand w).digest = s.digest := rfl
@[simp] theorem State.acceptCommand_vlen (s : State) (w : Word) : (s.acceptCommand w).vlen = s.vlen := rfl
@[simp] theorem State.acceptCommand_voff (s : State) (w : Word) : (s.acceptCommand w).voff = s.voff := rfl
@[simp] theorem State.acceptCommand_vval (s : State) (w : Word) : (s.acceptCommand w).vval = s.vval := rfl
@[simp] theorem State.acceptCommand_vcnt (s : State) (w : Word) : (s.acceptCommand w).vcnt = s.vcnt := rfl
@[simp] theorem State.acceptCommand_vin (s : State) (w : Word) : (s.acceptCommand w).vin = s.vin := rfl
@[simp] theorem State.acceptCommand_vsize (s : State) (w : Word) : (s.acceptCommand w).vsize = s.vsize := rfl
@[simp] theorem State.acceptCommand_cmd (s : State) (w : Word) : (s.acceptCommand w).cmd = w := rfl
@[simp] theorem State.acceptCommand_done (s : State) (w : Word) : (s.acceptCommand w).done = false := rfl
@[simp] theorem State.acceptCommand_herr (s : State) (w : Word) : (s.acceptCommand w).herr = s.herr := rfl
@[simp] theorem State.acceptCommand_err (s : State) (w : Word) : (s.acceptCommand w).err = .ok := rfl
@[simp] theorem State.acceptCommand_pend (s : State) (w : Word) : (s.acceptCommand w).pend = some w := rfl
@[simp] theorem State.acceptCommand_inReset (s : State) (w : Word) : (s.acceptCommand w).inReset = s.inReset := rfl
@[simp] theorem State.acceptCommand_cfg (s : State) (w : Word) : (s.acceptCommand w).cfg = s.cfg := rfl
@[simp] theorem State.acceptCommand_resetDraw (s : State) (w : Word) : (s.acceptCommand w).resetDraw = s.resetDraw := rfl
@[simp] theorem State.acceptCommand_draws (s : State) (w : Word) : (s.acceptCommand w).draws = s.draws := rfl
@[simp] theorem State.acceptCommand_script (s : State) (w : Word) : (s.acceptCommand w).script = s.script := rfl
@[simp] theorem State.acceptCommand_turns (s : State) (w : Word) : (s.acceptCommand w).turns = s.turns := rfl
@[simp] theorem State.acceptCommand_results (s : State) (w : Word) : (s.acceptCommand w).results = s.results := rfl

/-! A host access is refused (20_memory.md R59). -/

@[simp] theorem State.refuseAccess_lanes (s : State) : (s.refuseAccess).lanes = s.lanes := rfl
@[simp] theorem State.refuseAccess_mem (s : State) : (s.refuseAccess).mem = s.mem := rfl
@[simp] theorem State.refuseAccess_digest (s : State) : (s.refuseAccess).digest = s.digest := rfl
@[simp] theorem State.refuseAccess_vlen (s : State) : (s.refuseAccess).vlen = s.vlen := rfl
@[simp] theorem State.refuseAccess_voff (s : State) : (s.refuseAccess).voff = s.voff := rfl
@[simp] theorem State.refuseAccess_vval (s : State) : (s.refuseAccess).vval = s.vval := rfl
@[simp] theorem State.refuseAccess_vcnt (s : State) : (s.refuseAccess).vcnt = s.vcnt := rfl
@[simp] theorem State.refuseAccess_vin (s : State) : (s.refuseAccess).vin = s.vin := rfl
@[simp] theorem State.refuseAccess_vsize (s : State) : (s.refuseAccess).vsize = s.vsize := rfl
@[simp] theorem State.refuseAccess_cmd (s : State) : (s.refuseAccess).cmd = s.cmd := rfl
@[simp] theorem State.refuseAccess_done (s : State) : (s.refuseAccess).done = s.done := rfl
@[simp] theorem State.refuseAccess_herr (s : State) : (s.refuseAccess).herr = true := rfl
@[simp] theorem State.refuseAccess_err (s : State) : (s.refuseAccess).err = s.err := rfl
@[simp] theorem State.refuseAccess_pend (s : State) : (s.refuseAccess).pend = s.pend := rfl
@[simp] theorem State.refuseAccess_inReset (s : State) : (s.refuseAccess).inReset = s.inReset := rfl
@[simp] theorem State.refuseAccess_cfg (s : State) : (s.refuseAccess).cfg = s.cfg := rfl
@[simp] theorem State.refuseAccess_resetDraw (s : State) : (s.refuseAccess).resetDraw = s.resetDraw := rfl
@[simp] theorem State.refuseAccess_draws (s : State) : (s.refuseAccess).draws = s.draws := rfl
@[simp] theorem State.refuseAccess_script (s : State) : (s.refuseAccess).script = s.script := rfl
@[simp] theorem State.refuseAccess_turns (s : State) : (s.refuseAccess).turns = s.turns := rfl
@[simp] theorem State.refuseAccess_results (s : State) : (s.refuseAccess).results = s.results := rfl

/-! Reset is released (70_reset_and_hazards.md R230). -/

@[simp] theorem State.releaseReset_lanes (s : State) : (s.releaseReset).lanes = s.lanes := rfl
@[simp] theorem State.releaseReset_mem (s : State) : (s.releaseReset).mem = s.mem := rfl
@[simp] theorem State.releaseReset_digest (s : State) : (s.releaseReset).digest = s.digest := rfl
@[simp] theorem State.releaseReset_vlen (s : State) : (s.releaseReset).vlen = s.vlen := rfl
@[simp] theorem State.releaseReset_voff (s : State) : (s.releaseReset).voff = s.voff := rfl
@[simp] theorem State.releaseReset_vval (s : State) : (s.releaseReset).vval = s.vval := rfl
@[simp] theorem State.releaseReset_vcnt (s : State) : (s.releaseReset).vcnt = s.vcnt := rfl
@[simp] theorem State.releaseReset_vin (s : State) : (s.releaseReset).vin = s.vin := rfl
@[simp] theorem State.releaseReset_vsize (s : State) : (s.releaseReset).vsize = s.vsize := rfl
@[simp] theorem State.releaseReset_cmd (s : State) : (s.releaseReset).cmd = s.cmd := rfl
@[simp] theorem State.releaseReset_done (s : State) : (s.releaseReset).done = s.done := rfl
@[simp] theorem State.releaseReset_herr (s : State) : (s.releaseReset).herr = s.herr := rfl
@[simp] theorem State.releaseReset_err (s : State) : (s.releaseReset).err = s.err := rfl
@[simp] theorem State.releaseReset_pend (s : State) : (s.releaseReset).pend = s.pend := rfl
@[simp] theorem State.releaseReset_inReset (s : State) : (s.releaseReset).inReset = false := rfl
@[simp] theorem State.releaseReset_cfg (s : State) : (s.releaseReset).cfg = s.cfg := rfl
@[simp] theorem State.releaseReset_resetDraw (s : State) : (s.releaseReset).resetDraw = s.resetDraw := rfl
@[simp] theorem State.releaseReset_draws (s : State) : (s.releaseReset).draws = s.draws := rfl
@[simp] theorem State.releaseReset_script (s : State) : (s.releaseReset).script = s.script := rfl
@[simp] theorem State.releaseReset_turns (s : State) : (s.releaseReset).turns = s.turns := rfl
@[simp] theorem State.releaseReset_results (s : State) : (s.releaseReset).results = s.results := rfl

/-! A read drew a free value. -/

@[simp] theorem State.drew_lanes (s : State) : (s.drew).lanes = s.lanes := rfl
@[simp] theorem State.drew_mem (s : State) : (s.drew).mem = s.mem := rfl
@[simp] theorem State.drew_digest (s : State) : (s.drew).digest = s.digest := rfl
@[simp] theorem State.drew_vlen (s : State) : (s.drew).vlen = s.vlen := rfl
@[simp] theorem State.drew_voff (s : State) : (s.drew).voff = s.voff := rfl
@[simp] theorem State.drew_vval (s : State) : (s.drew).vval = s.vval := rfl
@[simp] theorem State.drew_vcnt (s : State) : (s.drew).vcnt = s.vcnt := rfl
@[simp] theorem State.drew_vin (s : State) : (s.drew).vin = s.vin := rfl
@[simp] theorem State.drew_vsize (s : State) : (s.drew).vsize = s.vsize := rfl
@[simp] theorem State.drew_cmd (s : State) : (s.drew).cmd = s.cmd := rfl
@[simp] theorem State.drew_done (s : State) : (s.drew).done = s.done := rfl
@[simp] theorem State.drew_herr (s : State) : (s.drew).herr = s.herr := rfl
@[simp] theorem State.drew_err (s : State) : (s.drew).err = s.err := rfl
@[simp] theorem State.drew_pend (s : State) : (s.drew).pend = s.pend := rfl
@[simp] theorem State.drew_inReset (s : State) : (s.drew).inReset = s.inReset := rfl
@[simp] theorem State.drew_cfg (s : State) : (s.drew).cfg = s.cfg := rfl
@[simp] theorem State.drew_resetDraw (s : State) : (s.drew).resetDraw = s.resetDraw := rfl
@[simp] theorem State.drew_draws (s : State) : (s.drew).draws = s.draws + 1 := rfl
@[simp] theorem State.drew_script (s : State) : (s.drew).script = s.script := rfl
@[simp] theorem State.drew_turns (s : State) : (s.drew).turns = s.turns := rfl
@[simp] theorem State.drew_results (s : State) : (s.drew).results = s.results := rfl

/-! A read is recorded. -/

@[simp] theorem State.record_lanes (s : State) (v : Word) : (s.record v).lanes = s.lanes := rfl
@[simp] theorem State.record_mem (s : State) (v : Word) : (s.record v).mem = s.mem := rfl
@[simp] theorem State.record_digest (s : State) (v : Word) : (s.record v).digest = s.digest := rfl
@[simp] theorem State.record_vlen (s : State) (v : Word) : (s.record v).vlen = s.vlen := rfl
@[simp] theorem State.record_voff (s : State) (v : Word) : (s.record v).voff = s.voff := rfl
@[simp] theorem State.record_vval (s : State) (v : Word) : (s.record v).vval = s.vval := rfl
@[simp] theorem State.record_vcnt (s : State) (v : Word) : (s.record v).vcnt = s.vcnt := rfl
@[simp] theorem State.record_vin (s : State) (v : Word) : (s.record v).vin = s.vin := rfl
@[simp] theorem State.record_vsize (s : State) (v : Word) : (s.record v).vsize = s.vsize := rfl
@[simp] theorem State.record_cmd (s : State) (v : Word) : (s.record v).cmd = s.cmd := rfl
@[simp] theorem State.record_done (s : State) (v : Word) : (s.record v).done = s.done := rfl
@[simp] theorem State.record_herr (s : State) (v : Word) : (s.record v).herr = s.herr := rfl
@[simp] theorem State.record_err (s : State) (v : Word) : (s.record v).err = s.err := rfl
@[simp] theorem State.record_pend (s : State) (v : Word) : (s.record v).pend = s.pend := rfl
@[simp] theorem State.record_inReset (s : State) (v : Word) : (s.record v).inReset = s.inReset := rfl
@[simp] theorem State.record_cfg (s : State) (v : Word) : (s.record v).cfg = s.cfg := rfl
@[simp] theorem State.record_resetDraw (s : State) (v : Word) : (s.record v).resetDraw = s.resetDraw := rfl
@[simp] theorem State.record_draws (s : State) (v : Word) : (s.record v).draws = s.draws := rfl
@[simp] theorem State.record_script (s : State) (v : Word) : (s.record v).script = s.script := rfl
@[simp] theorem State.record_turns (s : State) (v : Word) : (s.record v).turns = s.turns := rfl
@[simp] theorem State.record_results (s : State) (v : Word) : (s.record v).results = s.results ++ [v] := rfl

/-! A move is taken off the list. -/

@[simp] theorem State.popTurn_lanes (s : State) : (s.popTurn).lanes = s.lanes := rfl
@[simp] theorem State.popTurn_mem (s : State) : (s.popTurn).mem = s.mem := rfl
@[simp] theorem State.popTurn_digest (s : State) : (s.popTurn).digest = s.digest := rfl
@[simp] theorem State.popTurn_vlen (s : State) : (s.popTurn).vlen = s.vlen := rfl
@[simp] theorem State.popTurn_voff (s : State) : (s.popTurn).voff = s.voff := rfl
@[simp] theorem State.popTurn_vval (s : State) : (s.popTurn).vval = s.vval := rfl
@[simp] theorem State.popTurn_vcnt (s : State) : (s.popTurn).vcnt = s.vcnt := rfl
@[simp] theorem State.popTurn_vin (s : State) : (s.popTurn).vin = s.vin := rfl
@[simp] theorem State.popTurn_vsize (s : State) : (s.popTurn).vsize = s.vsize := rfl
@[simp] theorem State.popTurn_cmd (s : State) : (s.popTurn).cmd = s.cmd := rfl
@[simp] theorem State.popTurn_done (s : State) : (s.popTurn).done = s.done := rfl
@[simp] theorem State.popTurn_herr (s : State) : (s.popTurn).herr = s.herr := rfl
@[simp] theorem State.popTurn_err (s : State) : (s.popTurn).err = s.err := rfl
@[simp] theorem State.popTurn_pend (s : State) : (s.popTurn).pend = s.pend := rfl
@[simp] theorem State.popTurn_inReset (s : State) : (s.popTurn).inReset = s.inReset := rfl
@[simp] theorem State.popTurn_cfg (s : State) : (s.popTurn).cfg = s.cfg := rfl
@[simp] theorem State.popTurn_resetDraw (s : State) : (s.popTurn).resetDraw = s.resetDraw := rfl
@[simp] theorem State.popTurn_draws (s : State) : (s.popTurn).draws = s.draws := rfl
@[simp] theorem State.popTurn_script (s : State) : (s.popTurn).script = s.script := rfl
@[simp] theorem State.popTurn_turns (s : State) : (s.popTurn).turns = s.turns.tail := rfl
@[simp] theorem State.popTurn_results (s : State) : (s.popTurn).results = s.results := rfl

/-! Reset is asserted (70_reset_and_hazards.md R230). -/

@[simp] theorem State.assertReset_lanes (s : State) : (s.assertReset).lanes = State.reset.lanes := rfl
@[simp] theorem State.assertReset_mem (s : State) : (s.assertReset).mem = State.reset.mem := rfl
@[simp] theorem State.assertReset_digest (s : State) : (s.assertReset).digest = State.reset.digest := rfl
@[simp] theorem State.assertReset_vlen (s : State) : (s.assertReset).vlen = State.reset.vlen := rfl
@[simp] theorem State.assertReset_voff (s : State) : (s.assertReset).voff = State.reset.voff := rfl
@[simp] theorem State.assertReset_vval (s : State) : (s.assertReset).vval = State.reset.vval := rfl
@[simp] theorem State.assertReset_vcnt (s : State) : (s.assertReset).vcnt = State.reset.vcnt := rfl
@[simp] theorem State.assertReset_vin (s : State) : (s.assertReset).vin = State.reset.vin := rfl
@[simp] theorem State.assertReset_vsize (s : State) : (s.assertReset).vsize = State.reset.vsize := rfl
@[simp] theorem State.assertReset_cmd (s : State) : (s.assertReset).cmd = State.reset.cmd := rfl
@[simp] theorem State.assertReset_done (s : State) : (s.assertReset).done = State.reset.done := rfl
@[simp] theorem State.assertReset_herr (s : State) : (s.assertReset).herr = State.reset.herr := rfl
@[simp] theorem State.assertReset_err (s : State) : (s.assertReset).err = State.reset.err := rfl
@[simp] theorem State.assertReset_pend (s : State) : (s.assertReset).pend = State.reset.pend := rfl
@[simp] theorem State.assertReset_inReset (s : State) : (s.assertReset).inReset = true := rfl
@[simp] theorem State.assertReset_cfg (s : State) : (s.assertReset).cfg = s.cfg := rfl
@[simp] theorem State.assertReset_resetDraw (s : State) : (s.assertReset).resetDraw = s.resetDraw + 1 := rfl
@[simp] theorem State.assertReset_draws (s : State) : (s.assertReset).draws = s.draws := rfl
@[simp] theorem State.assertReset_script (s : State) : (s.assertReset).script = s.script := rfl
@[simp] theorem State.assertReset_turns (s : State) : (s.assertReset).turns = s.turns := rfl
@[simp] theorem State.assertReset_results (s : State) : (s.assertReset).results = s.results := rfl

/-! A command is placed for the next step. -/

@[simp] theorem State.placeCommand_lanes (s : State) (w : Word) : (s.placeCommand w).lanes = s.lanes := rfl
@[simp] theorem State.placeCommand_mem (s : State) (w : Word) : (s.placeCommand w).mem = s.mem := rfl
@[simp] theorem State.placeCommand_digest (s : State) (w : Word) : (s.placeCommand w).digest = s.digest := rfl
@[simp] theorem State.placeCommand_vlen (s : State) (w : Word) : (s.placeCommand w).vlen = s.vlen := rfl
@[simp] theorem State.placeCommand_voff (s : State) (w : Word) : (s.placeCommand w).voff = s.voff := rfl
@[simp] theorem State.placeCommand_vval (s : State) (w : Word) : (s.placeCommand w).vval = s.vval := rfl
@[simp] theorem State.placeCommand_vcnt (s : State) (w : Word) : (s.placeCommand w).vcnt = s.vcnt := rfl
@[simp] theorem State.placeCommand_vin (s : State) (w : Word) : (s.placeCommand w).vin = s.vin := rfl
@[simp] theorem State.placeCommand_vsize (s : State) (w : Word) : (s.placeCommand w).vsize = s.vsize := rfl
@[simp] theorem State.placeCommand_cmd (s : State) (w : Word) : (s.placeCommand w).cmd = w := rfl
@[simp] theorem State.placeCommand_done (s : State) (w : Word) : (s.placeCommand w).done = false := rfl
@[simp] theorem State.placeCommand_herr (s : State) (w : Word) : (s.placeCommand w).herr = s.herr := rfl
@[simp] theorem State.placeCommand_err (s : State) (w : Word) : (s.placeCommand w).err = .ok := rfl
@[simp] theorem State.placeCommand_pend (s : State) (w : Word) : (s.placeCommand w).pend = some w := rfl
@[simp] theorem State.placeCommand_inReset (s : State) (w : Word) : (s.placeCommand w).inReset = false := rfl
@[simp] theorem State.placeCommand_cfg (s : State) (w : Word) : (s.placeCommand w).cfg = s.cfg := rfl
@[simp] theorem State.placeCommand_resetDraw (s : State) (w : Word) : (s.placeCommand w).resetDraw = s.resetDraw := rfl
@[simp] theorem State.placeCommand_draws (s : State) (w : Word) : (s.placeCommand w).draws = s.draws := rfl
@[simp] theorem State.placeCommand_script (s : State) (w : Word) : (s.placeCommand w).script = s.script := rfl
@[simp] theorem State.placeCommand_turns (s : State) (w : Word) : (s.placeCommand w).turns = .engine :: s.turns := rfl
@[simp] theorem State.placeCommand_results (s : State) (w : Word) : (s.placeCommand w).results = s.results := rfl

end Sys2Proof.Machine
end

