-- ==== Sys2Proof/Laws/Ops.lean ====
section
/-! SUPPORT. One lemma per shared operation that says all it can do: the address map, the two host accesses, the varint
loop, the commands, the moves. -/

namespace Sys2Proof.Machine

theorem Region.holds_iff {p : Config.Params} {a : Nat} {r : Region} :
    r.holds p a = true ↔ r.base ≤ a ∧ a < r.base + r.size p := by
  simp [Region.holds]

/-- The regions do not overlap. -/
theorem Region.eq_of_holds {p : Config.Params} {a : Nat} {q r : Region} (hq : q.holds p a = true)
    (hr : r.holds p a = true) : q = r := by
  rw [Region.holds_iff] at hq hr
  cases q <;> cases r <;> first | rfl | (simp only [Region.base, Region.size] at hq hr; omega)

/-- The region of an offset is the one that holds it (20_memory.md R51). -/
theorem regionAt?_eq_some {p : Config.Params} {a : Nat} {r : Region} :
    regionAt? p a = some r ↔ r.base ≤ a ∧ a < r.base + r.size p := by
  rw [← Region.holds_iff]
  refine ⟨fun h => by simpa using List.find?_some h, fun h => ?_⟩
  have hmem : r ∈ Region.all := by cases r <;> decide
  cases hf : regionAt? p a with
  | none => exact absurd h (by simpa using List.find?_eq_none.1 hf r hmem)
  | some q =>
    have hq : q.holds p a = true := List.find?_some hf
    rw [Region.eq_of_holds hq h]

theorem Region.contains_iff {p : Config.Params} {r : Region} {a n : Nat} :
    r.contains p a n = true ↔ r.base ≤ a ∧ a + n ≤ r.base + r.size p := by
  simp [Region.contains]

/-- Width and alignment (20_memory.md R55). -/
theorem Region.widthOk_iff {r : Region} {a n : Nat} :
    r.widthOk a n = true ↔ if r.isRegister then n = 8 ∧ a = r.base
      else (n = 1 ∨ n = 2 ∨ n = 4 ∨ n = 8) ∧ a % n = 0 := by
  cases r <;> simp [Region.widthOk, Region.isRegister, or_assoc]

/-- The first offset of a register, with 8 bytes, is an access of that register (20_memory.md R51, R55). -/
theorem Region.register_access (p : Config.Params) {r : Region} (h : r.isRegister = true) :
    regionAt? p r.base = some r ∧ r.contains p r.base 8 = true ∧ r.widthOk r.base 8 = true := by
  refine ⟨regionAt?_eq_some.2 ⟨le_rfl, ?_⟩, Region.contains_iff.2 ⟨le_rfl, ?_⟩, ?_⟩
  · cases r <;> first | (simp only [Region.base, Region.size]; omega) | cases h
  · cases r <;> first | (simp only [Region.base, Region.size]; omega) | cases h
  · rw [Region.widthOk_iff, if_pos h]; exact ⟨rfl, rfl⟩

/-- An access that is not refused: what R59's list leaves. -/
theorem State.refused_eq_false {s : State} {a n : Nat} {k : Access} :
    s.refused a n k = false ↔ (s.busy && k.isWrite) = false ∧ ∃ r, regionAt? s.cfg a = some r ∧
      r.contains s.cfg a n = true ∧ r.widthOk a n = true ∧ (k.isWrite && r.readOnly) = false ∧
      s.cursorRefused r k = false := by
  unfold State.refused
  cases regionAt? s.cfg a with
  | none => simp
  | some r => simp only [Bool.or_eq_false_iff, Bool.not_eq_false', Option.some.injEq, exists_eq_left', and_assoc]

/-- A legal read out of reset (20_memory.md R53). -/
theorem State.memRead_of_legal {s : State} {a n : Nat} {r : Region} (hi : s.inReset = false)
    (hr : regionAt? s.cfg a = some r) (hc : r.contains s.cfg a n = true) (hw : r.widthOk a n = true) :
    s.memRead a n =
      if s.busy && r.freeWhileBusy then (s.drawnValue n, s.drew)
      else if s.busy && r = .status then (s.statusBusy, s.drew)
      else (s.readExact r a n, s) := by
  have hf : s.refused a n .read = false :=
    State.refused_eq_false.2 ⟨by simp [Access.isWrite], r, hr, hc, hw, by simp [Access.isWrite], by cases r <;> rfl⟩
  rw [State.memRead, if_neg (by rw [hi]; decide), if_neg (by rw [hf]; decide), hr]

/-- A write that is not refused, out of reset (20_memory.md R54). -/
theorem State.memWrite_of_accepted {s : State} {a n : Nat} {v : Word} {r : Region} (hi : s.inReset = false)
    (hf : s.refused a n (.write v) = false) (hr : regionAt? s.cfg a = some r) :
    s.memWrite a n v = s.writeExact r a n v := by
  rw [State.memWrite, if_neg (by rw [hi]; decide), if_neg (by rw [hf]; decide), hr]

/-- A read answers one of these (R53, R230). -/
theorem State.memRead_cases (s : State) (a n : Nat) :
    (s.inReset = true ∧ s.memRead a n = (s.drawnValue n, s.drew)) ∨
    (s.inReset = false ∧ s.refused a n .read = true ∧ s.memRead a n = (0, s.refuseAccess)) ∨
    (s.inReset = false ∧ s.refused a n .read = false ∧ ∃ r, regionAt? s.cfg a = some r ∧
      ((s.busy = true ∧ r.freeWhileBusy = true ∧ s.memRead a n = (s.drawnValue n, s.drew)) ∨
       (s.busy = true ∧ r = .status ∧ s.memRead a n = (s.statusBusy, s.drew)) ∨
       ((s.busy = true → r.freeWhileBusy = false ∧ r ≠ .status) ∧ s.memRead a n = (s.readExact r a n, s)))) := by
  cases hr : s.inReset with
  | true => left; simp [State.memRead, hr]
  | false =>
    cases hf : s.refused a n .read with
    | true => right; left; simp [State.memRead, hr, hf]
    | false =>
      right; right
      cases hg : regionAt? s.cfg a with
      | none => simp [State.refused, hg] at hf
      | some r =>
        refine ⟨rfl, rfl, r, rfl, ?_⟩
        cases hb : s.busy <;> cases hw : r.freeWhileBusy <;> by_cases hs : r = .status <;>
          simp [State.memRead, hr, hf, hg, hb, hw, hs] <;> simp_all [Region.freeWhileBusy]

/-- A write does one of these (R54, R230). -/
theorem State.memWrite_cases (s : State) (a n : Nat) (v : Word) :
    (s.inReset = true ∧ s.memWrite a n v = s) ∨
    (s.inReset = false ∧ s.refused a n (.write v) = true ∧ s.memWrite a n v = s.refuseAccess) ∨
    (s.inReset = false ∧ s.refused a n (.write v) = false ∧ s.busy = false ∧ ∃ r, regionAt? s.cfg a = some r ∧
      r.contains s.cfg a n = true ∧ r.widthOk a n = true ∧ r.readOnly = false ∧
      s.cursorRefused r (.write v) = false ∧ s.memWrite a n v = s.writeExact r a n v) := by
  cases hr : s.inReset with
  | true => left; simp [State.memWrite, hr]
  | false =>
    cases hf : s.refused a n (.write v) with
    | true => right; left; simp [State.memWrite, hr, hf]
    | false =>
      right; right
      have h := hf
      simp only [State.refused, Access.isWrite, Bool.or_eq_false_iff, Bool.and_true] at h
      cases hg : regionAt? s.cfg a with
      | none => simp [hg] at h
      | some r =>
        simp only [hg, Bool.or_eq_false_iff, Bool.not_eq_false', Bool.true_and] at h
        exact ⟨rfl, rfl, h.1, r, rfl, h.2.1.1.1, h.2.1.1.2, h.2.1.2, h.2.2, by simp [State.memWrite, hr, hf, hg]⟩

/-- The varint loop ends at a byte with bit 7 clear, all before it set and inside the input, or finds none (R101). -/
theorem varintLoop_cases (buf : Nat → Byte) (off len fuel i : Nat) (value : Word) :
    (∃ k, i < k ∧ k ≤ i + fuel ∧ off + k ≤ len ∧
      (∀ j, i ≤ j → j + 1 < k → (buf (off + j)).getLsbD 7 = true) ∧ (buf (off + (k - 1))).getLsbD 7 = false ∧
      varintLoop buf off len fuel i value =
        .ok ((List.range' i (k - i)).foldl (fun acc j => acc ||| groupWorth (buf (off + j)) j) value) k) ∨
    ((∀ j, i ≤ j → j < i + fuel → off + j < len → (buf (off + j)).getLsbD 7 = true) ∧
      varintLoop buf off len fuel i value = .malformed) := by
  induction fuel generalizing i value with
  | zero => right; exact ⟨fun j h1 h2 => absurd h2 (by omega), rfl⟩
  | succ fuel ih =>
    by_cases hl : len ≤ off + i
    · right
      exact ⟨fun j h1 _ h3 => absurd h3 (by omega), by simp [varintLoop, hl]⟩
    · cases hb : (buf (off + i)).getLsbD 7 with
      | false =>
        left
        refine ⟨i + 1, by omega, by omega, by omega, fun j h1 h2 => absurd h2 (by omega), by simpa using hb, ?_⟩
        rw [varintLoop, if_neg hl, if_neg (by rw [hb]; decide), Nat.add_sub_cancel_left]
        rfl
      | true =>
        have hstep : varintLoop buf off len (fuel + 1) i value =
            varintLoop buf off len fuel (i + 1) (value ||| groupWorth (buf (off + i)) i) := by
          rw [varintLoop, if_neg hl, if_pos hb]
        rcases ih (i + 1) (value ||| groupWorth (buf (off + i)) i) with ⟨k, h1, h2, h3, h4, h5, h6⟩ | ⟨h1, h2⟩
        · left
          refine ⟨k, by omega, by omega, h3, fun j hj1 hj2 => ?_, h5, ?_⟩
          · rcases Nat.eq_or_lt_of_le hj1 with rfl | hlt
            · exact hb
            · exact h4 j hlt hj2
          · rw [hstep, h6, show k - i = (k - (i + 1)) + 1 by omega, List.range'_succ]
            rfl
        · right
          refine ⟨fun j hj1 hj2 hj3 => ?_, by rw [hstep, h2]⟩
          rcases Nat.eq_or_lt_of_le hj1 with rfl | hlt
          · exact hb
          · exact h1 j hlt (by omega) hj3

/-- A command answers its result and the end of the engine step, or the fault of an illegal `VLEN`. -/
theorem exec_cases (i : Instr) (s : State) :
    (i = .nop ∧ exec i s = .next ({ s with herr := false } : State).complete) ∨
    (i = .keccakInit ∧ exec i s = .next ({ s with lanes := Vector.replicate 25 0 } : State).complete) ∨
    (i = .keccakPerm ∧ exec i s = .next ({ s with lanes := keccakF s.lanes } : State).complete) ∨
    (i = .keccakAbsorb ∧ exec i s = .next ({ s with lanes := absorbBlock s.lanes s.messageBlock } : State).complete) ∨
    (∃ len, i = .keccakAbsorbFinal len ∧ tailLength len ≤ 135 ∧
      exec i s = .next ({ s with lanes := absorbBlock s.lanes (s.finalBlock (tailLength len)) } : State).complete) ∨
    (∃ len, i = .keccakAbsorbFinal len ∧ 135 < tailLength len ∧ exec i s = .next (s.raise .illegalCommand)) ∨
    (i = .keccakSqueeze ∧ exec i s = .next ({ s with digest := squeezeBytes s.lanes } : State).complete) ∨
    (i = .varintUnpack ∧ s.cfg.vbufBytes < s.vlen.toNat ∧ exec i s = .fault .decodeInputOutsideVbuf) ∨
    (∃ v k, i = .varintUnpack ∧ s.vlen.toNat ≤ s.cfg.vbufBytes ∧
      varintDecode s.vbufByte s.voff.toNat s.vlen.toNat = .ok v k ∧
      exec i s = .next ({ s with vval := v, vcnt := BitVec.ofNat 64 k,
                                 voff := s.voff + BitVec.ofNat 64 k } : State).complete) ∨
    (i = .varintUnpack ∧ s.vlen.toNat ≤ s.cfg.vbufBytes ∧
      varintDecode s.vbufByte s.voff.toNat s.vlen.toNat = .malformed ∧
      exec i s = .next (s.raise .malformedVarint)) ∨
    (i = .varintSize ∧ exec i s = .next ({ s with vsize := BitVec.ofNat 64 (packedSize s.vin) } : State).complete) := by
  cases i with
  | nop => simp [exec, execNop]
  | keccakInit => simp [exec, execKeccakInit]
  | keccakPerm => simp [exec, execKeccakPerm]
  | keccakAbsorb => simp [exec, execKeccakAbsorb]
  | keccakSqueeze => simp [exec, execKeccakSqueeze]
  | varintSize => simp [exec, execVarintSize]
  | keccakAbsorbFinal len =>
    by_cases h : tailLength len ≤ 135
    · simp [exec, execKeccakAbsorbFinal, h]
    · simp [exec, execKeccakAbsorbFinal, h, Nat.lt_of_not_le h]
  | varintUnpack =>
    by_cases h : s.cfg.vbufBytes < s.vlen.toNat
    · simp [exec, execVarintUnpack, h]
    · cases hd : varintDecode s.vbufByte s.voff.toNat s.vlen.toNat <;>
        simp [exec, execVarintUnpack, h, hd, Nat.le_of_not_lt h]

/-- The engine's move: nothing pending, an illegal word, or a command (60_exceptions.md R200). -/
theorem State.engineMove_cases (s : State) :
    (s.pend = none ∧ s.engineMove = .next s) ∨
    (∃ w e, s.pend = some w ∧ decode w = .error e ∧ s.engineMove = .next (s.raise .illegalCommand)) ∨
    (∃ w i, s.pend = some w ∧ decode w = .ok i ∧ s.engineMove = exec i s) := by
  cases hp : s.pend with
  | none => simp [State.engineMove, hp]
  | some w => cases hd : decode w <;> simp [State.engineMove, hp, hd]

/-- The host's move: no statement left, an access outside the block's window, or an access (R87, R88). -/
theorem State.hostMove_cases (s : State) :
    s.hostMove = s ∨ (∃ rest, s.hostMove = { s with script := rest }) ∨
    (∃ a n rest, s.hostMove = { (s.memRead a n).2.record (s.memRead a n).1 with script := rest }) ∨
    (∃ addr a n v rest, s.script = .wr addr n v :: rest ∧ portOffset? s.cfg addr = some a ∧
      s.hostMove = { s.memWrite a n v with script := rest }) := by
  unfold State.hostMove
  split
  · exact .inl rfl
  · split
    · exact .inr (.inl ⟨_, rfl⟩)
    · exact .inr (.inr (.inl ⟨_, _, _, rfl⟩))
  · split
    · exact .inr (.inl ⟨_, rfl⟩)
    · exact .inr (.inr (.inr ⟨_, _, _, _, _, by assumption, by assumption, rfl⟩))
  · exact .inr (.inr (.inl ⟨_, _, _, rfl⟩))

end Sys2Proof.Machine
end

