-- ==== Sys2Proof/Laws/PerInstr.lean ====
section
/-! SUPPORT. One lemma per constructor of `Instr`: the fields of its encoded word (30_encoding.md R81, R82). -/

namespace Sys2Proof

/-- `OP` of each command (30_encoding.md R82). -/
def Laws.EncodedFields.opcode : Instr → Byte
  | .nop => 0x00
  | .keccakInit => 0x01
  | .keccakPerm => 0x02
  | .keccakAbsorb => 0x03
  | .keccakAbsorbFinal _ => 0x04
  | .keccakSqueeze => 0x05
  | .varintUnpack => 0x10
  | .varintSize => 0x11

/-- `LEN` of each command (30_encoding.md R82, R83). -/
def Laws.EncodedFields.len : Instr → Byte
  | .keccakAbsorbFinal len => len
  | .nop | .keccakInit | .keccakPerm | .keccakAbsorb | .keccakSqueeze | .varintUnpack | .varintSize => 0

/-- The encoded word has the command's opcode, its `LEN`, and 0 in the reserved fields. -/
def Laws.EncodedFields.Statement (i : Instr) : Prop :=
  opField (encode i) = Laws.EncodedFields.opcode i ∧ lenField (encode i) = Laws.EncodedFields.len i ∧
    reservedField (encode i) = 0

theorem Laws.EncodedFields.nop : Laws.EncodedFields.Statement .nop := ⟨rfl, rfl, rfl⟩

theorem Laws.EncodedFields.keccakInit : Laws.EncodedFields.Statement .keccakInit := ⟨rfl, rfl, rfl⟩

theorem Laws.EncodedFields.keccakPerm : Laws.EncodedFields.Statement .keccakPerm := ⟨rfl, rfl, rfl⟩

theorem Laws.EncodedFields.keccakAbsorb : Laws.EncodedFields.Statement .keccakAbsorb := ⟨rfl, rfl, rfl⟩

theorem Laws.EncodedFields.keccakAbsorbFinal (len : Byte) :
    Laws.EncodedFields.Statement (.keccakAbsorbFinal len) := by
  have hlt := len.isLt
  have hval : (encode (.keccakAbsorbFinal len)).toNat = 4 + len.toNat * 256 := by
    simp [encode, BitVec.toNat_add, BitVec.toNat_mul, BitVec.toNat_setWidth]
    omega
  refine ⟨?_, ?_, ?_⟩ <;> apply BitVec.eq_of_toNat_eq
  · rw [opField, BitVec.extractLsb'_toNat, hval]
    simp [Nat.shiftRight_eq_div_pow, Laws.EncodedFields.opcode]
  · rw [lenField, BitVec.extractLsb'_toNat, hval]
    simp [Nat.shiftRight_eq_div_pow, Laws.EncodedFields.len]
    omega
  · rw [reservedField, BitVec.extractLsb'_toNat, hval]
    simp [Nat.shiftRight_eq_div_pow]
    omega

theorem Laws.EncodedFields.keccakSqueeze : Laws.EncodedFields.Statement .keccakSqueeze := ⟨rfl, rfl, rfl⟩

theorem Laws.EncodedFields.varintUnpack : Laws.EncodedFields.Statement .varintUnpack := ⟨rfl, rfl, rfl⟩

theorem Laws.EncodedFields.varintSize : Laws.EncodedFields.Statement .varintSize := ⟨rfl, rfl, rfl⟩

end Sys2Proof
end

