-- ==== Sys2Proof/Laws/Varint.lean ====
section
/-! SUPPORT. The worth of the varint groups as numbers (40_varint.md R100, R103). -/

namespace Sys2Proof.Machine

/-- A group's worth: its low 7 bits at bit `7*i` (R100). -/
theorem groupWorth_toNat (b : Byte) (i : Nat) (hi : i < 9) :
    (groupWorth b i).toNat = b.toNat % 128 * 2 ^ (7 * i) := by
  unfold groupWorth
  rw [BitVec.toNat_shiftLeft, BitVec.toNat_setWidth, BitVec.extractLsb'_toNat, Nat.shiftLeft_eq]
  have : b.toNat >>> 0 % 2 ^ 7 = b.toNat % 128 := by simp
  rw [this]
  have h1 : b.toNat % 128 < 128 := Nat.mod_lt _ (by decide)
  have h2 : 2 ^ (7 * i) ≤ 2 ^ 56 := Nat.pow_le_pow_right (by decide) (by omega)
  rw [Nat.mod_eq_of_lt (by omega : b.toNat % 128 < 2 ^ 64)]
  apply Nat.mod_eq_of_lt
  calc _ < 128 * 2 ^ 56 := Nat.mul_lt_mul_of_lt_of_le h1 h2 (by positivity)
    _ ≤ 2 ^ 64 := by norm_num

/-- The groups gathered by OR are their sum, since they do not overlap (R103), and `k` of them stay below `2^(7k)`. -/
theorem foldl_groupWorth_toNat (g : Nat → Byte) (k : Nat) (hk : k ≤ 9) :
    ((List.range' 0 k).foldl (fun acc j => acc ||| groupWorth (g j) j) (0 : Word)).toNat =
        ∑ i ∈ Finset.range k, (g i).toNat % 128 * 2 ^ (7 * i) ∧
      ∑ i ∈ Finset.range k, (g i).toNat % 128 * 2 ^ (7 * i) < 2 ^ (7 * k) := by
  induction k with
  | zero => simp
  | succ k ih =>
    obtain ⟨h1, h2⟩ := ih (by omega)
    rw [List.range'_concat, List.foldl_append, Finset.sum_range_succ]
    simp only [List.foldl_cons, List.foldl_nil, BitVec.toNat_or, Nat.zero_add, Nat.one_mul]
    rw [h1, groupWorth_toNat _ _ (by omega)]
    have h3 : (g k).toNat % 128 < 128 := Nat.mod_lt _ (by decide)
    refine ⟨?_, ?_⟩
    · rw [Nat.or_comm, Nat.add_comm, Nat.mul_comm, Nat.two_pow_add_eq_or_of_lt h2]
    · rw [show 7 * (k + 1) = 7 + 7 * k by ring, Nat.pow_add]
      nlinarith [Nat.pos_of_ne_zero (show 2 ^ (7 * k) ≠ 0 by positivity)]

end Sys2Proof.Machine
end

