-- ==== Sys2Proof/Tests/Slice0.lean ====
section
/-! SUPPORT. Tests with expected values from the spec's vectors (95_test_vectors.md) and encodings, and a witness for
the hypotheses of each statement. -/

namespace Sys2Proof.Tests

open Sys2Proof Sys2Proof.Machine

/-- The state an outcome goes on to. -/
def after? : Host.Outcome State Fault Refusal → Option State
  | .next t => some t
  | .fault _ => none
  | .refused _ => none

/-- A state with the bytes `bs` of `VBUF` written from index 0 on, as decode input. -/
def varintState (bs : List Byte) : State :=
  { State.reset with
    mem := (List.range bs.length).map fun i => (0x8000 + i, bs.getD i 0)
    vlen := BitVec.ofNat 64 bs.length }

/-- A state with the bytes `bs` of `MB` written from index 0 on. -/
def blockState (bs : List Byte) : State :=
  { State.reset with mem := (List.range bs.length).map fun i => (0x0200 + i, bs.getD i 0) }

/-- The result of VARINT_UNPACK: value, count, cursor and code. -/
def unpacked (s : State) : Option (Word × Word × Word × ErrCode) :=
  (after? (exec .varintUnpack s)).map fun t => (t.vval, t.vcnt, t.voff, t.err)

/-! Well-formedness and decoding (R82, R85; 95_test_vectors.md section 2.5) -/

theorem test_wellFormed_refuses_long_tail : (Instr.keccakAbsorbFinal 136).wellFormed = false := by decide

theorem test_wellFormed_takes_longest_tail : (Instr.keccakAbsorbFinal 135).wellFormed = true := by decide

-- Each word below is written out bit by bit from R81: RSVD1, RSVD0, LEN, OP.
theorem test_decode_nop :
    decode 0b00000000000000000000000000000000_0000000000000000_00000000_00000000 = .ok .nop := rfl

theorem test_decode_keccakInit :
    decode 0b00000000000000000000000000000000_0000000000000000_00000000_00000001 = .ok .keccakInit := rfl

theorem test_decode_keccakPerm :
    decode 0b00000000000000000000000000000000_0000000000000000_00000000_00000010 = .ok .keccakPerm := rfl

theorem test_decode_keccakAbsorb :
    decode 0b00000000000000000000000000000000_0000000000000000_00000000_00000011 = .ok .keccakAbsorb := rfl

theorem test_decode_keccakAbsorbFinal :
    decode 0b00000000000000000000000000000000_0000000000000000_10000111_00000100 = .ok (.keccakAbsorbFinal 135) := rfl

theorem test_decode_keccakSqueeze :
    decode 0b00000000000000000000000000000000_0000000000000000_00000000_00000101 = .ok .keccakSqueeze := rfl

theorem test_decode_varintUnpack :
    decode 0b00000000000000000000000000000000_0000000000000000_00000000_00010000 = .ok .varintUnpack := rfl

theorem test_decode_varintSize :
    decode 0b00000000000000000000000000000000_0000000000000000_00000000_00010001 = .ok .varintSize := rfl

theorem test_decode_refuses_by_name :
    decode 0x0000000000008804 = .error .lenTooLarge ∧ decode 0x0000000000000100 = .error .lenNotZero ∧
    decode 0x0000000000000110 = .error .lenNotZero ∧ decode 0x0000000000000006 = .error .reservedOpcode ∧
    decode 0x00000000000000FF = .error .reservedOpcode ∧ decode 0x0000000000010002 = .error .reservedBits ∧
    decode 0x8000000000000000 = .error .reservedBits := ⟨rfl, rfl, rfl, rfl, rfl, rfl, rfl⟩

theorem test_decode_bytes :
    decodeBytes [0x04, 0x03, 0, 0, 0, 0, 0, 0, 0xAA] = .ok (.keccakAbsorbFinal 3, [0xAA]) ∧
    decodeBytes [0x04, 0x03, 0, 0, 0, 0, 0] = .error .tooFewBytes := ⟨rfl, rfl⟩

theorem test_table_word : decodeTableWord 64 0x8704 = some (.keccakAbsorbFinal 135) ∧
    decodeTableWord 64 0x12 = none := by decide

/-! A placed word runs as the next step. -/

theorem test_step_runs_squeeze :
    (after? (step (State.reset.withFetchWord 64 0x05))).map (fun t => (t.done, t.busy, t.err)) =
      some (true, false, .ok) := by decide

theorem test_step_reports_illegal_word :
    (after? (step (State.reset.withFetchWord 64 0x06))).map (fun t => t.statusWord) =
      some 0x0000000000001006 := by decide

/-! Status and NOP (R34, R190) -/

theorem test_status_after_reset : State.reset.statusWord = 0x0000000000000004 := by decide

theorem test_nop_example :
    ({ State.reset with done := true, herr := true } : State).statusWord = 0x000000000000000E ∧
    (after? (exec .nop { State.reset with done := true, herr := true })).map State.statusWord =
      some 0x0000000000000006 := by decide

/-! The permutation (95_test_vectors.md section 2.3) -/

theorem test_chi_lane_one :
    chi (ofColumnRow fun x y => if x = 1 ∧ y = 0 then 1 else 0) =
      ofColumnRow fun x y => if (x = 1 ∨ x = 4) ∧ y = 0 then 1 else 0 := by decide +kernel

-- The round-count vector for k = 2.
theorem test_two_rounds :
    (roundConstants.take 2).foldl keccakRound (Vector.replicate 25 0) =
      #v[0x0000000000008083, 0x0000100000000000, 0x0000000000008000, 0x0000000000000001, 0x0000100000008000,
         0, 0x0000200000200000, 0, 0x0000200000000000, 0x0000000000200000,
         0x0000000000000002, 0x0000000000000200, 0, 0x0000000000000202, 0,
         0x0000000010000400, 0, 0x0000000000000400, 0x0000000010000000, 0,
         0x0000010000000000, 0, 0x0000010000000004, 0, 0x0000000000000004] := by decide +kernel

-- Vector P1, all 25 lanes, as (x, y, A[x, y]).
theorem test_keccakPerm_zero :
    (after? (exec .keccakPerm State.reset)).map (fun t =>
      ([(0, 0, 0xF1258F7940E1DDE7), (1, 0, 0x84D5CCF933C0478A), (2, 0, 0xD598261EA65AA9EE),
       (3, 0, 0xBD1547306F80494D), (4, 0, 0x8B284E056253D057),
       (0, 1, 0xFF97A42D7F8E6FD4), (1, 1, 0x90FEE5A0A44647C4), (2, 1, 0x8C5BDA0CD6192E76),
       (3, 1, 0xAD30A6F71B19059C), (4, 1, 0x30935AB7D08FFC64),
       (0, 2, 0xEB5AA93F2317D635), (1, 2, 0xA9A6E6260D712103), (2, 2, 0x81A57C16DBCF555F),
       (3, 2, 0x43B831CD0347C826), (4, 2, 0x01F22F1A11A5569F),
       (0, 3, 0x05E5635A21D9AE61), (1, 3, 0x64BEFEF28CC970F2), (2, 3, 0x613670957BC46611),
       (3, 3, 0xB87C5A554FD00ECB), (4, 3, 0x8C3EE88A1CCF32C8),
       (0, 4, 0x940C7922AE3A2614), (1, 4, 0x1841F924A2C509E4), (2, 4, 0x16F53526E70465C2),
       (3, 4, 0x75F644E97F30A13B), (4, 4, 0xEAF1FF7B5CECA249)] : List (Fin 5 × Fin 5 × Word)).all
        fun p => lane t.lanes p.1 p.2.1 = p.2.2) = some true := by
  decide +kernel

/-! The sponge (95_test_vectors.md section 2.4) -/

-- Vector K8: the padded block's last lane for 135 bytes of 0xFF.
theorem test_pad_full_tail :
    blockLane ((blockState (List.replicate 135 0xFF)).finalBlock 135) 16 = 0x81FFFFFFFFFFFFFF := by decide +kernel

-- Vector K4: the empty tail; the unwritten bytes of MB are not read.
theorem test_absorbFinal_empty :
    (after? (exec (.keccakAbsorbFinal 0) State.reset)).map (fun t => (t.lanes[0], t.lanes[24])) =
      some (0x3C23F7860146D2C5, 0xA3FE1AF7779FAFD7) := by decide +kernel

-- Vector K5: the tail "abc".
theorem test_absorbFinal_abc :
    (after? (exec (.keccakAbsorbFinal 3) (blockState [0x61, 0x62, 0x63]))).map (fun t => (t.lanes[0], t.lanes[3])) =
      some (0x4FA945EA7A65034E, 0x456C2DA18FF544EC) := by decide +kernel

-- Program 3.5, block 0: message bytes 0 to 135.
theorem test_absorb_counting_block :
    (after? (exec .keccakAbsorb (blockState ((List.range 136).map (BitVec.ofNat 8))))).map
      (fun t => (t.lanes[0], t.lanes[3])) = some (0xC9834334D2362F28, 0x5DC691D14FE45F12) := by decide +kernel

-- Vectors K4 and K9: the first digest bytes of the empty message.
theorem test_squeeze_bytes :
    let A := (State.reset.lanes.set 0 0x3C23F7860146D2C5).set 3 0x70A4855D04D8FA7B
    (after? (exec .keccakSqueeze { State.reset with lanes := A })).map (fun t => (t.digest[0], t.digest[1], t.digest[7], t.digest[31])) =
      some (0xC5, 0xD2, 0x3C, 0x70) := by decide +kernel

theorem test_init_zeroes :
    (after? (exec .keccakInit { State.reset with lanes := Vector.replicate 25 7 })).map (fun t => t.lanes[24]) =
      some 0 := by decide

/-! The varint unit (95_test_vectors.md sections 2.1 and 2.2) -/

-- Vectors V5, V9, V13 and V18.
theorem test_unpack_decodes :
    unpacked (varintState [0xFF, 0x01]) = some (255, 2, 2, .ok) ∧
    unpacked (varintState [0x80, 0x00]) = some (0, 2, 2, .ok) ∧
    unpacked (varintState [0xFF, 0xFF, 0xFF, 0xFF, 0xFF, 0xFF, 0xFF, 0xFF, 0x7F]) =
      some (0x7FFFFFFFFFFFFFFF, 9, 9, .ok) ∧
    unpacked (varintState [0x7F, 0x01]) = some (127, 1, 1, .ok) := by decide +kernel

-- Vectors V15, V17 and V19: code 0x02, nothing else changed.
theorem test_unpack_rejects :
    unpacked (varintState [0xFF, 0xFF, 0xFF, 0xFF, 0xFF, 0xFF, 0xFF, 0xFF, 0xFF, 0x01]) =
      some (0, 0, 0, .malformedVarint) ∧
    unpacked (varintState []) = some (0, 0, 0, .malformedVarint) ∧
    unpacked { varintState [0x80, 0x80, 0x01] with vlen := 2 } = some (0, 0, 0, .malformedVarint) := by decide +kernel

-- The table's boundaries.
theorem test_packed_size :
    [0, 127, 128, 16383, 16384, 2097151, 2097152, 268435455, 268435456, 34359738367, 34359738368, 4398046511103,
      4398046511104, 562949953421311, 562949953421312, 72057594037927936, 18446744073709551615].map packedSize =
      [1, 1, 2, 2, 3, 3, 4, 4, 5, 5, 6, 6, 7, 7, 8, 8, 8] := by decide +kernel

theorem test_size_writes_result :
    (after? (exec .varintSize { State.reset with vin := 300 })).map (fun t => (t.vsize, t.err)) = some (2, .ok) := by
  decide

-- canon of 128, 2^56 and 2^63 - 1 (section 2.1).
theorem test_canon : canon 128 = [0x80, 0x01] ∧
    canon 0x0100000000000000 = [0x80, 0x80, 0x80, 0x80, 0x80, 0x80, 0x80, 0x80, 0x01] ∧
    canon 0x7FFFFFFFFFFFFFFF = [0xFF, 0xFF, 0xFF, 0xFF, 0xFF, 0xFF, 0xFF, 0xFF, 0x7F] := by decide

/-! The host port (95_test_vectors.md section 2.6) -/

/-- A state whose first lane is that of vector P1. -/
def portState : State := { State.reset with lanes := State.reset.lanes.set 0 0xF1258F7940E1DDE7 }

-- M1, M2, M3.
theorem test_port_reads :
    (portState.memRead 0x0100 8).1 = 0xF1258F7940E1DDE7 ∧ (portState.memRead 0x0100 1).1 = 0xE7 ∧
    (portState.memRead 0x0104 4).1 = 0xF1258F79 := by decide +kernel

-- The results read where R51 puts them: VVAL, VCNT, VSIZE, and D with byte 0 lowest (R52, R167).
theorem test_port_reads_results :
    let s : State := { State.reset with
      vval := 255, vcnt := 2, vsize := 8, digest := Vector.ofFn fun j => BitVec.ofNat 8 (0xA0 + j.val) }
    [(s.memRead 0x0020 8).1, (s.memRead 0x0028 8).1, (s.memRead 0x0038 8).1, (s.memRead 0x0300 4).1,
      (s.memRead 0x031F 1).1] = [255, 2, 8, 0xA3A2A1A0, 0xBF] := by decide +kernel

-- M5, M6, M7, M8, M9, M10, M11, M13, M15.
theorem test_port_refuses :
    [portState.refused 0x0101 2 .read, portState.refused 0x0008 4 .read, portState.refused 0x0040 8 .read,
      portState.refused 0x01C8 8 .read, portState.refused 0x0300 1 (.write 0), portState.refused 0x0008 8 (.write 0),
      portState.refused 0x0010 8 (.write 4097), portState.refused 0x0018 8 (.write 1),
      portState.refused 0x9000 8 (.write 1), portState.refused 0x0010 8 (.write 4096)] =
    [true, true, true, true, true, true, true, true, true, false] := by decide +kernel

-- M16: a little-endian write to MB and a one-byte read.
theorem test_port_write_then_read :
    ((State.reset.memWrite 0x0208 8 0x1122334455667788).memRead 0x0208 1).1 = 0x88 := by decide +kernel

-- A partial write to a lane.
theorem test_port_lane_write :
    (portState.memWrite 0x0106 2 0xABCD).lanes[0] = 0xABCD8F7940E1DDE7 := by decide +kernel

-- The one host program of 42_keccak_sponge.md R168 for the empty message: its statements.
theorem test_keccak256_script_empty :
    keccak256Script Config.recommended [] =
      [.wr 0 8 0x1, .wait, .wr 0 8 0x4, .wait, .wr 0 8 0x5, .wait] := by decide

/-! Witnesses: a state and operands that meet each statement's hypotheses -/

/-- A command pending, out of reset, with a decode input of one byte. -/
def busyState : State :=
  { State.reset with
    mem := [(0x8000, 0x05)], vlen := 1, cmd := 0x10, pend := some 0x10 }

theorem busyState_inv : busyState.Inv where
  cfg := by decide
  memory := ⟨by decide, by
    intro c hc
    simp only [busyState, List.mem_singleton] at hc
    subst hc
    exact .inr (by decide)⟩
  cursor := ⟨by decide, by decide⟩
  varint := ⟨by decide, by decide, by decide⟩
  status := ⟨by decide, fun w hw => ⟨Option.some.inj hw, rfl, rfl⟩, fun h => by cases h⟩

theorem witness_step_keeps_invariant : ∃ s t : State, s.Inv ∧ step s = .next t := ⟨busyState, _, busyState_inv, rfl⟩

theorem witness_step_keeps_configuration : ∃ s t : State, step s = .next t := ⟨busyState, _, rfl⟩

theorem witness_reset_turn :
    (∃ s : State, s.nextTurn = .assertReset) ∧ (∃ s : State, s.inReset = true) ∧
    ∃ s : State, s.nextTurn = .releaseReset ∧ s.HoldsResetValues :=
  ⟨⟨{ busyState with turns := [.assertReset] }, rfl⟩, ⟨busyState.assertReset, rfl⟩,
    { State.reset with inReset := true, turns := [.releaseReset] }, rfl,
    ⟨by decide, by decide, fun _ _ => rfl, by decide, by decide, rfl⟩⟩

theorem witness_wellFormed : (Instr.keccakAbsorbFinal 0).wellFormed = true ∧
    (Instr.keccakAbsorbFinal 135).wellFormed = true := by decide

theorem witness_decodes : ∃ w i, decode w = .ok i := ⟨0x8704, _, rfl⟩

theorem witness_engine_runs : busyState.nextTurn = .engine ∧ busyState.pend = some 0x10 ∧
    decode 0x10 = .ok .varintUnpack := ⟨rfl, rfl, rfl⟩

theorem witness_engine_illegal : ∃ (s : State) (w : Word) (e : DecodeError),
    s.nextTurn = .engine ∧ s.pend = some w ∧ decode w = .error e :=
  ⟨{ busyState with pend := some 0x8804 }, 0x8804, .lenTooLarge, rfl, rfl, rfl⟩

theorem witness_engine_move_illegal : ∃ (s t : State) (w : Word) (e : DecodeError), s.pend = some w ∧ decode w = .error e ∧
    s.engineMove = .next t := ⟨{ busyState with pend := some 0x100 }, _, 0x100, .lenNotZero, rfl, rfl, rfl⟩

theorem witness_engine_performs : ∃ (s : State) (w : Word) (i : Instr), s.pend = some w ∧ decode w = .ok i :=
  ⟨busyState, 0x10, .varintUnpack, rfl, rfl⟩

theorem witness_busy : busyState.busy = true ∧ busyState.inReset = false := ⟨rfl, rfl⟩

theorem witness_theta : ∃ (A : Lanes) (C D : Fin 5 → Word),
    (∀ x, C x = lane A x 0 ^^^ lane A x 1 ^^^ lane A x 2 ^^^ lane A x 3 ^^^ lane A x 4) ∧
    ∀ x, D x = C (x - 1) ^^^ ((C (x + 1) <<< 1) ||| (C (x + 1) >>> 63)) :=
  ⟨Vector.replicate 25 1, _, _, fun _ => rfl, fun _ => rfl⟩

-- Tail lengths at both ends, and a pending word with one too long.
theorem witness_tail_lengths : (0 : Byte).toNat ≤ 135 ∧ (135 : Byte).toNat ≤ 135 ∧ 135 < (136 : Byte).toNat ∧
    ∃ s : State, s.pend = some (0x0000000000000004 + (136 : Byte).setWidth 64 * 0x100) :=
  ⟨by decide, by decide, by decide, { busyState with pend := some 0x8804 }, rfl⟩

theorem witness_long_tail : 135 < (136 : Byte).toNat ∧ 135 < (255 : Byte).toNat := by decide

-- Two states that differ only in MB past a tail of one byte.
theorem witness_same_tail : ∃ s s' u u' : State, s.mem ≠ s'.mem ∧ s.lanes = s'.lanes ∧
    (∀ j < (1 : Byte).toNat, s.mbByte j = s'.mbByte j) ∧
    exec (.keccakAbsorbFinal 1) s = .next u ∧ exec (.keccakAbsorbFinal 1) s' = .next u' :=
  ⟨blockState [0x61, 0x62], blockState [0x61, 0x63], _, _, by decide, rfl, by decide, rfl, rfl⟩

-- One byte, and nine bytes up to the end of the input.
theorem witness_varint_one : ∃ s : State, s.vlen.toNat ≤ s.cfg.vbufBytes ∧ s.voff.toNat + 1 ≤ s.vlen.toNat ∧
    (s.vbufByte (s.voff.toNat + 0)).getLsbD 7 = false :=
  ⟨varintState [0x7F], by decide, by decide, by decide⟩

theorem witness_varint_nine : ∃ s : State, s.vlen.toNat ≤ s.cfg.vbufBytes ∧ s.voff.toNat + 9 ≤ s.vlen.toNat ∧
    (∀ i < 8, (s.vbufByte (s.voff.toNat + i)).getLsbD 7 = true) ∧
    (s.vbufByte (s.voff.toNat + 8)).getLsbD 7 = false :=
  ⟨varintState [0x80, 0x80, 0x80, 0x80, 0x80, 0x80, 0x80, 0x80, 0x01], by decide, by decide, by decide, by decide⟩

theorem witness_malformed_empty : ∃ s : State, s.vlen.toNat ≤ s.cfg.vbufBytes ∧ ∀ i < 9,
    s.voff.toNat + i < s.vlen.toNat → (s.vbufByte (s.voff.toNat + i)).getLsbD 7 = true :=
  ⟨varintState [], by decide, fun i _ h => absurd h (by simp [varintState, State.reset])⟩

theorem witness_malformed_nine : ∃ s : State, s.voff.toNat + 9 = s.vlen.toNat ∧ s.vlen.toNat ≤ s.cfg.vbufBytes ∧
    ∀ i < 9, s.voff.toNat + i < s.vlen.toNat → (s.vbufByte (s.voff.toNat + i)).getLsbD 7 = true :=
  ⟨varintState [0xFF, 0xFF, 0xFF, 0xFF, 0xFF, 0xFF, 0xFF, 0xFF, 0xFF], by decide, by decide, by decide⟩

theorem witness_unpack_succeeds : ∃ s t : State, exec .varintUnpack s = .next t ∧ t.err = .ok :=
  ⟨varintState [0x05], _, rfl, rfl⟩

-- A failed decode, and another state with the same input.
theorem witness_unpack_fails : ∃ s t u : State, exec .varintUnpack s = .next t ∧ t.err = .malformedVarint ∧
    t.err.code ≠ 0x00 ∧ t.err ≠ .ok ∧ u.cfg = t.cfg ∧ u.vlen = t.vlen ∧ u.voff = t.voff ∧
    (∀ i, u.vbufByte i = t.vbufByte i) ∧ u.lanes ≠ t.lanes :=
  ⟨varintState [], _, { varintState [] with lanes := Vector.replicate 25 1 }, rfl, rfl, by decide, by decide,
    rfl, rfl, rfl, fun _ => rfl, by decide⟩

-- The largest value, with the bytes of its canonical encoding.
theorem witness_canon : ∃ (v : Word) (buf : Nat → Byte), v.toNat < 2 ^ 63 ∧
    ∀ i < (canon v).length, buf i = (canon v).getD i 0 :=
  ⟨0x7FFFFFFFFFFFFFFF, fun i => (canon 0x7FFFFFFFFFFFFFFF).getD i 0, by decide, fun _ _ => rfl⟩

theorem witness_size_rows : (0, 127, 1) ∈ packedSizeTable ∧ 0 ≤ (0 : Word).toNat ∧
    (562949953421312, 18446744073709551615, 8) ∈ packedSizeTable ∧
    562949953421312 ≤ (0xFFFFFFFFFFFFFFFF : Word).toNat := by decide

-- A value in each clause, at its ends.
theorem witness_size_clauses : (0x00FFFFFFFFFFFFFF : Word).toNat < 2 ^ 56 ∧
    2 ^ 56 ≤ (0x0100000000000000 : Word).toNat ∧ (0x7FFFFFFFFFFFFFFF : Word).toNat < 2 ^ 63 ∧
    2 ^ 63 ≤ (0x8000000000000000 : Word).toNat := by decide

theorem witness_exec_completes : ∀ i : Instr, ∃ t, exec i busyState = .next t := by
  intro i
  cases i with
  | keccakAbsorbFinal len =>
    by_cases h : tailLength len ≤ 135
    · exact ⟨_, if_pos h⟩
    · exact ⟨_, if_neg h⟩
  | _ => exact ⟨_, rfl⟩

-- Of each command some other is not, for the clauses of the frame of the units.
theorem witness_other_commands : Instr.nop ∉ [Instr.keccakInit, .keccakPerm, .keccakAbsorb] ∧
    (∀ len : Byte, Instr.nop ≠ .keccakAbsorbFinal len) ∧ Instr.keccakPerm ≠ .keccakSqueeze ∧
    Instr.keccakPerm ≠ .varintUnpack ∧ Instr.keccakPerm ≠ .varintSize ∧ Instr.keccakPerm ≠ .nop := by
  refine ⟨by decide, fun len h => (by cases h), by decide, by decide, by decide, by decide⟩

theorem witness_refused_read : ∃ s : State, s.inReset = false ∧ s.refused 0x0101 2 .read = true :=
  ⟨State.reset, rfl, by decide⟩

theorem witness_refused_write : ∃ s : State, s.inReset = false ∧ s.refused 0x0010 8 (.write 4097) = true :=
  ⟨State.reset, rfl, by decide⟩

theorem witness_idle : ∃ s : State, s.inReset = false ∧ s.pend = none := ⟨portState, rfl, rfl⟩

-- Accepted writes to a register, a lane, MB and the last byte of VBUF.
theorem witness_accepted_writes : ∃ s : State, s.inReset = false ∧ s.refused 0x0000 8 (.write 7) = false ∧
    s.refused 0x01C7 1 (.write 7) = false ∧ s.refused 0x0280 8 (.write 7) = false ∧
    s.refused 0x8FFF 1 (.write 7) = false := ⟨State.reset, rfl, by decide, by decide, by decide, by decide⟩

theorem witness_outside_bytes : ¬ (0x0200 ≤ 0x0208 ∧ 0x0208 < 0x0200 + 8) ∧
    ¬ (0x0200 ≤ 0x0100 + 199 ∧ 0x0100 + 199 < 0x0200 + 8) := by decide

-- While idle: the widest and the last access of each buffer.
theorem witness_idle_accesses : portState.inReset = false ∧ portState.pend = none ∧
    legalAccess portState.cfg 0x0100 8 ∧ legalAccess portState.cfg 0x01C7 1 ∧ legalAccess portState.cfg 0x0280 8 ∧
    legalAccess portState.cfg 0x0287 1 ∧ legalAccess portState.cfg 0x0318 8 ∧ legalAccess portState.cfg 0x031F 1 ∧
    legalAccess portState.cfg 0x8FF8 8 ∧ legalAccess portState.cfg 0x8FFF 1 := by
  refine ⟨rfl, rfl, ?_, ?_, ?_, ?_, ?_, ?_, ?_, ?_⟩ <;>
    simp [legalAccess, portState, State.reset, Config.recommended]

-- While busy: an access in each clause, at the ends of its windows.
theorem witness_busy_accesses : busyState.Inv ∧ busyState.busy = true ∧ busyState.inReset = false ∧
    legalAccess busyState.cfg 0x01C0 8 ∧ legalAccess busyState.cfg 0x031F 1 ∧ legalAccess busyState.cfg 0x0038 8 ∧
    legalAccess busyState.cfg 0x0287 1 ∧ legalAccess busyState.cfg 0x8FF8 8 := by
  refine ⟨busyState_inv, rfl, rfl, ?_, ?_, ?_, ?_, ?_⟩ <;>
    simp [legalAccess, busyState, State.reset, Config.recommended]

theorem witness_herr_cleared : ∃ s t : State, step s = .next t ∧ s.herr = true ∧ t.herr = false :=
  ⟨{ State.reset with herr := true, pend := some 0 }, _, rfl, rfl, rfl⟩

theorem witness_host_statements :
    (∃ s : State, s.nextTurn = .host ∧ s.script = [.rd 0x0008 8] ∧ portOffset? s.cfg 0x0008 = some 0x0008) ∧
    (∃ s : State, s.nextTurn = .host ∧ s.script = [.wr 0xFFFF 1 0] ∧ portOffset? s.cfg 0xFFFF = some 0xFFFF) ∧
    (∃ s : State, s.nextTurn = .host ∧ s.script = [.wait] ∧ s.inReset = false ∧ s.busy = true) :=
  ⟨⟨{ State.reset with script := [.rd 0x0008 8] }, rfl, rfl, rfl⟩,
    ⟨{ State.reset with script := [.wr 0xFFFF 1 0] }, rfl, rfl, rfl⟩,
    ⟨{ busyState with script := [.wait], turns := [.host] }, rfl, rfl, rfl, rfl⟩⟩

theorem witness_pending : ∃ s : State, s.Inv ∧ s.turns = [] ∧ s.pend = some 0x10 := ⟨busyState, busyState_inv, rfl, rfl⟩

-- A step that changes a lane and one that changes the digest.
theorem witness_lanes_change : ∃ s t : State, step s = .next t ∧ t.lanes ≠ s.lanes :=
  ⟨{ State.reset with lanes := Vector.replicate 25 7, pend := some 1 }, _, rfl, by decide⟩

theorem witness_digest_changes : ∃ s t : State, step s = .next t ∧ t.digest ≠ s.digest :=
  ⟨{ State.reset with lanes := Vector.replicate 25 7, pend := some 5 }, _, rfl, by decide +kernel⟩

end Sys2Proof.Tests
end

namespace Sys2Proof

/-! What a word that decodes looks like (30_encoding.md R81, R82, R85). -/

/-- A word is its three fields, `OP` lowest (R81). -/
theorem fields_append (w : Word) : reservedField w ++ lenField w ++ opField w = w := by
  apply BitVec.eq_of_getLsbD_eq
  intro i hi
  simp only [reservedField, lenField, opField, BitVec.getLsbD_append, BitVec.getLsbD_extractLsb']
  by_cases hop : i < 8
  · simp [hop]
  · by_cases hlen : i < 16
    · have hl : i - 8 < 8 := by omega
      have hi' : 8 + (i - 8) = i := by omega
      simp [hop, hl, hi']
    · have hl : ¬ i - 8 < 8 := by omega
      have hr : i - 8 - 8 < 48 := by omega
      have hi' : 16 + (i - 8 - 8) = i := by omega
      simp [hop, hl, hr, hi']

/-- A word that decodes has passed the checks of R85. -/
theorem decode_eq_ok {w : Word} {i : Instr} (h : decode w = .ok i) :
    reservedField w = 0 ∧ instrOf? (opField w) (lenField w) = some i ∧ (opField w ≠ 0x04 → lenField w = 0) ∧
      (opField w = 0x04 → (lenField w).toNat ≤ 135) := by
  unfold decode at h
  split at h
  · cases h
  · next hrsvd =>
    split at h
    · cases h
    · next j hj =>
      split_ifs at h with hzero hlarge
      obtain rfl : j = i := by simpa using h
      exact ⟨not_not.1 hrsvd, hj, fun hop => not_not.1 fun hlen => hzero ⟨hop, hlen⟩,
        fun hop => Nat.le_of_not_lt fun hlt => hlarge ⟨hop, hlt⟩⟩

/-- The opcode of `NOP` is 0x00 alone (R82). -/
theorem opcode_of_instrOf?_nop {op len : Byte} (h : instrOf? op len = some .nop) : op = 0x00 := by
  by_contra hop
  unfold instrOf? at h
  rw [if_neg hop] at h
  split_ifs at h <;> cases h

/-- `NOP` is the all-zero word alone (R86). -/
theorem eq_zero_of_decode_nop {w : Word} (h : decode w = .ok .nop) : w = 0 := by
  obtain ⟨hrsvd, hinstr, hlen, -⟩ := decode_eq_ok h
  have hop := opcode_of_instrOf?_nop hinstr
  rw [← fields_append w, hrsvd, hop, hlen (by rw [hop]; decide)]
  decide

end Sys2Proof

namespace Sys2Proof.Machine

/-! The fields of the `STATUS` word (10_state.md R34), one lemma per field. -/

/-- The layout of the word: four flags, four reserved bits, the code of `ERR`, reserved bits. -/
theorem State.getLsbD_statusWith (s : State) (eof : Bool) (i : Nat) :
    (s.statusWith eof).getLsbD i =
      if i = 0 then s.busy else if i = 1 then s.done else if i = 2 then eof else if i = 3 then s.herr
      else if i < 8 then false else s.err.code.getLsbD (i - 8) := by
  simp only [State.statusWith, BitVec.getLsbD_append, BitVec.getLsbD_ofBool, BitVec.getLsbD_zero]
  grind

theorem State.statusWith_busy (s : State) (eof : Bool) : (s.statusWith eof).getLsbD 0 = s.busy :=
  s.getLsbD_statusWith eof 0

theorem State.statusWith_done (s : State) (eof : Bool) : (s.statusWith eof).getLsbD 1 = s.done :=
  s.getLsbD_statusWith eof 1

theorem State.statusWith_eof (s : State) (eof : Bool) : (s.statusWith eof).getLsbD 2 = eof :=
  s.getLsbD_statusWith eof 2

theorem State.statusWith_herr (s : State) (eof : Bool) : (s.statusWith eof).getLsbD 3 = s.herr :=
  s.getLsbD_statusWith eof 3

/-- Bits 7:4 are reserved. -/
theorem State.statusWith_reserved_low (s : State) (eof : Bool) : (s.statusWith eof).extractLsb' 4 4 = 0 := by
  apply BitVec.eq_of_getLsbD_eq
  intro i hi
  have h8 : 4 + i < 8 := by omega
  have hflag : 4 + i ≠ 1 ∧ 4 + i ≠ 2 ∧ 4 + i ≠ 3 := by omega
  simp [State.getLsbD_statusWith, h8, hflag]

/-- Bits 15:8 are the code of `ERR`. -/
theorem State.statusWith_err (s : State) (eof : Bool) : (s.statusWith eof).extractLsb' 8 8 = s.err.code := by
  apply BitVec.eq_of_getLsbD_eq
  intro i hi
  have hflag : 8 + i ≠ 1 ∧ 8 + i ≠ 2 ∧ 8 + i ≠ 3 := by omega
  simp [State.getLsbD_statusWith, hi, hflag]

/-- Bits 63:16 are reserved. -/
theorem State.statusWith_reserved_high (s : State) (eof : Bool) : (s.statusWith eof).extractLsb' 16 48 = 0 := by
  apply BitVec.eq_of_getLsbD_eq
  intro i hi
  have hflag : 16 + i ≠ 1 ∧ 16 + i ≠ 2 ∧ 16 + i ≠ 3 := by omega
  have hcode : s.err.code.getLsbD (16 + i - 8) = false := BitVec.getLsbD_of_ge _ _ (by omega)
  simp [State.getLsbD_statusWith, hflag, hcode]

/-- `EOF` of the word read while idle compares the cursor with the length (10_state.md R37). -/
theorem State.statusWord_eof (s : State) : s.statusWord.getLsbD 2 = decide (s.voff = s.vlen) :=
  s.statusWith_eof s.eof

/-- A code that the block raises is one of the three of 60_exceptions.md R201 that are not reserved. -/
theorem ErrCode.code_mem_of_raised {e : ErrCode} (h : e.raised = true) :
    e.code ∈ ([0x00, 0x02, 0x10] : List Byte) := by
  cases e with
  | ok | malformedVarint | illegalCommand => decide
  | unexpectedEndOfData | arrayTooLarge | unsupportedVersion => cases h

/-! Host accesses that are refused, and 8-byte host accesses to a register at its own offset (20_memory.md R51,
R53 to R55, R59). -/

theorem State.memRead_of_refused {s : State} {a n : Nat} (hi : s.inReset = false)
    (hf : s.refused a n .read = true) : s.memRead a n = (0, s.refuseAccess) := by
  simp [State.memRead, hi, hf]

theorem State.memWrite_of_refused {s : State} {a n : Nat} {v : Word} (hi : s.inReset = false)
    (hf : s.refused a n (.write v) = true) : s.memWrite a n v = s.refuseAccess := by
  simp [State.memWrite, hi, hf]

/-- What R59's list leaves of a register: a write is refused while busy, where the host may not write, and where it
would break the cursor. -/
theorem State.refused_write_register (s : State) {r : Region} (hr : r.isRegister = true) (v : Word) :
    s.refused r.base 8 (.write v) = (s.busy || r.readOnly || s.cursorRefused r (.write v)) := by
  obtain ⟨hat, hin, hwidth⟩ := Region.register_access s.cfg hr
  simp [State.refused, hat, hin, hwidth, Access.isWrite, Bool.or_assoc]

/-- While idle a register reads as what it holds, without a side effect. -/
theorem State.memRead_register_of_idle {s : State} {r : Region} (hr : r.isRegister = true)
    (hi : s.inReset = false) (hp : s.pend = none) :
    s.memRead r.base 8 = (s.readExact r r.base 8, s) := by
  obtain ⟨hat, hin, hwidth⟩ := Region.register_access s.cfg hr
  simp [State.memRead_of_legal hi hat hin hwidth, State.busy, hp]

/-- While idle a write to a register the host may write is taken, unless it would break the cursor. -/
theorem State.memWrite_register_of_idle {s : State} {r : Region} (hr : r.isRegister = true)
    (hro : r.readOnly = false) (hi : s.inReset = false) (hp : s.pend = none) (v : Word) :
    s.memWrite r.base 8 v =
      if s.cursorRefused r (.write v) = true then s.refuseAccess else s.writeExact r r.base 8 v := by
  have href : s.refused r.base 8 (.write v) = s.cursorRefused r (.write v) := by
    simp [s.refused_write_register hr, State.busy, hp, hro]
  split
  · next hc => exact State.memWrite_of_refused hi (href.trans hc)
  · next hc =>
    exact State.memWrite_of_accepted hi (href.trans (Bool.eq_false_iff.2 hc)) (Region.register_access s.cfg hr).1

theorem State.memRead_status_of_idle {s : State} (hi : s.inReset = false) (hp : s.pend = none) :
    s.memRead 0x0008 8 = (s.statusWord, s) :=
  State.memRead_register_of_idle (r := .status) rfl hi hp

/-- `STATUS` is read-only, busy or not (10_state.md R34). -/
theorem State.memWrite_status {s : State} (hi : s.inReset = false) (v : Word) :
    s.memWrite 0x0008 8 v = s.refuseAccess := by
  have href := s.refused_write_register (r := .status) rfl v
  exact State.memWrite_of_refused hi (href.trans (by simp [Region.readOnly]))

theorem State.memWrite_vlen_of_idle {s : State} (hi : s.inReset = false) (hp : s.pend = none) (v : Word) :
    s.memWrite 0x0010 8 v =
      if s.cfg.vbufBytes < v.toNat ∨ v.toNat < s.voff.toNat then { s with herr := true } else { s with vlen := v } := by
  refine (State.memWrite_register_of_idle (r := .vlen) rfl rfl hi hp v).trans ?_
  simp [State.cursorRefused, State.refuseAccess, State.writeExact]

theorem State.memWrite_voff_of_idle {s : State} (hi : s.inReset = false) (hp : s.pend = none) (v : Word) :
    s.memWrite 0x0018 8 v = if s.vlen.toNat < v.toNat then { s with herr := true } else { s with voff := v } := by
  refine (State.memWrite_register_of_idle (r := .voff) rfl rfl hi hp v).trans ?_
  simp [State.cursorRefused, State.refuseAccess, State.writeExact]

/-! What no command writes, and what `NOP` alone writes (30_encoding.md R84). -/

/-- No command writes `VLEN` (10_state.md R27), and only `NOP` writes `HERR` (43_system.md R190). -/
theorem exec_frame {i : Instr} {s t : State} (h : exec i s = .next t) :
    t.vlen = s.vlen ∧ (i ≠ .nop → t.herr = s.herr) := by
  rcases exec_cases i s with ⟨hnop, he⟩ | ⟨-, he⟩ | ⟨-, he⟩ | ⟨-, he⟩ | ⟨_, -, -, he⟩ | ⟨_, -, -, he⟩ | ⟨-, he⟩ |
    ⟨-, -, he⟩ | ⟨_, _, -, -, -, he⟩ | ⟨-, -, -, he⟩ | ⟨-, he⟩ <;> cases he.symm.trans h
  · exact ⟨rfl, fun hne => absurd hnop hne⟩
  all_goals exact ⟨rfl, fun _ => rfl⟩

theorem exec_vlen {i : Instr} {s t : State} (h : exec i s = .next t) : t.vlen = s.vlen :=
  (exec_frame h).1

theorem exec_herr_of_ne_nop {i : Instr} {s t : State} (h : exec i s = .next t) (hne : i ≠ .nop) :
    t.herr = s.herr :=
  (exec_frame h).2 hne

/-! The statements about reset and about single reads and writes of the `STATUS`, `VLEN` and `VOFF` registers. -/

/-- Settles O1: every field at its reset value; nothing is listed in memory, so each byte is its draw. -/
theorem resetHoldsSpecValues : Obligations.ResetHoldsSpecValues where
  lanes i := by simp [State.reset]
  digest i := by simp [State.reset]
  buffers _ _ := rfl
  registers := ⟨rfl, rfl, rfl, rfl, rfl, rfl, rfl⟩
  status := by decide
  pend := rfl

/-- Settles O40: the writes by the list of refused accesses, `VLEN` under commands by the cases of `exec`. -/
theorem cursorWritesKeepTheInvariant : Obligations.CursorWritesKeepTheInvariant :=
  ⟨fun _ v hi hp => ⟨State.memWrite_vlen_of_idle hi hp v, State.memWrite_voff_of_idle hi hp v,
      State.memRead_register_of_idle (r := .vlen) rfl hi hp, State.memRead_register_of_idle (r := .voff) rfl hi hp⟩,
    fun _ _ _ h => exec_vlen h⟩

/-- Settles O46, one lemma per field, the codes from the invariant. -/
theorem statusFieldsAreInPlace : Obligations.StatusFieldsAreInPlace := fun s =>
  ⟨s.statusWith_busy _, s.statusWith_done _, s.statusWord_eof, s.statusWith_herr _, s.statusWith_reserved_low _,
    s.statusWith_err _, s.statusWith_reserved_high _,
    fun hinv => ErrCode.code_mem_of_raised hinv.status.1, State.memRead_status_of_idle, State.memWrite_status⟩

/-- Settles O47: an idle read returns the live word, whose bit 2 is the comparison. -/
theorem eofFollowsTheCursor : Obligations.EofFollowsTheCursor := by
  intro s hi hp
  rw [State.memRead_status_of_idle hi hp, State.statusWord_eof, decide_eq_true_iff]

/-! `STATUS.HERR` (10_state.md R38): refused accesses set it, and each agent's move but a reset and a NOP keeps it. -/

theorem State.writeExact_herr (s : State) (r : Region) (a n : Nat) (v : Word) :
    (s.writeExact r a n v).herr = s.herr := by
  cases r <;> rfl

theorem State.memRead_keeps_herr {s : State} (h : s.herr = true) (a n : Nat) : (s.memRead a n).2.herr = true := by
  rcases s.memRead_cases a n with ⟨-, he⟩ | ⟨-, -, he⟩ | ⟨-, -, _, -, ⟨-, -, he⟩ | ⟨-, -, he⟩ | ⟨-, he⟩⟩ <;>
    simp [he, h]

theorem State.memWrite_keeps_herr {s : State} (h : s.herr = true) (a n : Nat) (v : Word) :
    (s.memWrite a n v).herr = true := by
  rcases s.memWrite_cases a n v with ⟨-, he⟩ | ⟨-, -, he⟩ | ⟨-, -, -, r, -, -, -, -, -, he⟩
  · rw [he, h]
  · rw [he, State.refuseAccess_herr]
  · rw [he, State.writeExact_herr, h]

/-- The host cannot clear `HERR`. -/
theorem State.hostMove_keeps_herr {s : State} (h : s.herr = true) : s.hostMove.herr = true := by
  rcases s.hostMove_cases with he | ⟨rest, he⟩ | ⟨a, n, rest, he⟩ | ⟨_, a, n, v, rest, -, -, he⟩ <;> rw [he]
  · exact h
  · exact h
  · exact State.memRead_keeps_herr h a n
  · exact State.memWrite_keeps_herr h a n v

/-- The engine clears `HERR` by the NOP word alone. -/
theorem State.pend_of_engineMove_clears_herr {s t : State} (h : s.engineMove = .next t) (hs : s.herr = true)
    (ht : t.herr = false) : s.pend = some 0 := by
  have hchanged : t.herr ≠ s.herr := by simp [hs, ht]
  rcases s.engineMove_cases with ⟨-, he⟩ | ⟨w, e, -, -, he⟩ | ⟨w, i, hp, hd, he⟩
  · obtain rfl : s = t := by simpa [he] using h
    exact absurd rfl hchanged
  · obtain rfl : s.raise .illegalCommand = t := by simpa [he] using h
    exact absurd rfl hchanged
  · have hnop : i = .nop := by
      by_contra hne
      exact hchanged (exec_herr_of_ne_nop (he.symm.trans h) hne)
    subst hnop
    rw [hp, eq_zero_of_decode_nop hd]

/-- A step that clears `HERR` asserts reset or is the engine's on the NOP word. -/
theorem nextTurn_of_step_clears_herr {s t : State} (h : step s = .next t) (hs : s.herr = true)
    (ht : t.herr = false) : s.nextTurn = .assertReset ∨ (s.nextTurn = .engine ∧ s.pend = some 0) := by
  have hpop : s.popTurn.herr = true := hs
  unfold step at h
  cases hturn : s.nextTurn with
  | assertReset => exact .inl rfl
  | engine =>
    rw [hturn] at h
    exact .inr ⟨rfl, State.pend_of_engineMove_clears_herr (s := s.popTurn) h hpop ht⟩
  | host =>
    obtain rfl : s.popTurn.hostMove = t := by simpa [hturn, State.move] using h
    simp [State.hostMove_keeps_herr hpop] at ht
  | releaseReset =>
    obtain rfl : s.popTurn.releaseReset = t := by simpa [hturn, State.move] using h
    simp [hs] at ht

/-- Settles O48: the refused accesses by their effect, the steps by whose move is next. -/
theorem herrIsSticky : Obligations.HerrIsSticky := by
  refine ⟨fun s a n hi hf => ?_, fun s a n v hi hf => ?_, fun _ _ => nextTurn_of_step_clears_herr⟩
  · rw [State.memRead_of_refused hi hf, State.refuseAccess_herr]
  · rw [State.memWrite_of_refused hi hf, State.refuseAccess_herr]

end Sys2Proof.Machine

namespace Sys2Proof.Machine

/-! Which accesses the address map allows, region by region, and which of them R59 refuses (20_memory.md R51, R55 to
R57, R59). -/

/-- The offsets of the registers (R51). -/
theorem Region.exists_register_base_iff {a : Nat} :
    (∃ r : Region, r.isRegister = true ∧ a = r.base) ↔
      a = 0x00 ∨ a = 0x08 ∨ a = 0x10 ∨ a = 0x18 ∨ a = 0x20 ∨ a = 0x28 ∨ a = 0x30 ∨ a = 0x38 := by
  constructor
  · rintro ⟨r, hr, rfl⟩
    cases r with
    | lanes | mb | digest | vbuf => cases hr
    | _ => simp [Region.base]
  · rintro (h | h | h | h | h | h | h | h)
    exacts [⟨.cmd, rfl, h⟩, ⟨.status, rfl, h⟩, ⟨.vlen, rfl, h⟩, ⟨.voff, rfl, h⟩, ⟨.vval, rfl, h⟩, ⟨.vcnt, rfl, h⟩,
      ⟨.vin, rfl, h⟩, ⟨.vsize, rfl, h⟩]

/-- The windows of the buffers (R51). -/
theorem Region.exists_buffer_contains_iff {p : Config.Params} {a n : Nat} :
    (∃ r : Region, r.isRegister = false ∧ r.contains p a n = true) ↔
      (0x0100 ≤ a ∧ a + n ≤ 0x01C8) ∨ (0x0200 ≤ a ∧ a + n ≤ 0x0288) ∨ (0x0300 ≤ a ∧ a + n ≤ 0x0320) ∨
        (0x8000 ≤ a ∧ a + n ≤ 0x8000 + p.vbufBytes) := by
  simp only [Region.contains_iff]
  constructor
  · rintro ⟨r, hr, hin⟩
    cases r with
    | lanes => exact .inl hin
    | mb => exact .inr (.inl hin)
    | digest => exact .inr (.inr (.inl hin))
    | vbuf => exact .inr (.inr (.inr hin))
    | _ => cases hr
  · rintro (h | h | h | h)
    exacts [⟨.lanes, rfl, h⟩, ⟨.mb, rfl, h⟩, ⟨.digest, rfl, h⟩, ⟨.vbuf, rfl, h⟩]

/-- The accesses the map allows are those wholly inside a region, with a width and alignment that it takes. -/
theorem legalAccess_iff {p : Config.Params} {a n : Nat} :
    legalAccess p a n ↔ ∃ r : Region, r.contains p a n = true ∧ r.widthOk a n = true := by
  rw [legalAccess, ← Region.exists_register_base_iff, ← Region.exists_buffer_contains_iff]
  constructor
  · rintro (⟨rfl, r, hr, rfl⟩ | ⟨hn, halign, r, hr, hin⟩)
    · exact ⟨r, (Region.register_access p hr).2⟩
    · exact ⟨r, hin, Region.widthOk_iff.2 (by simp [hr, hn, halign])⟩
  · rintro ⟨r, hin, hwidth⟩
    rw [Region.widthOk_iff] at hwidth
    split at hwidth
    · next hr => exact .inl ⟨hwidth.1, r, hr, hwidth.2⟩
    · next hr => exact .inr ⟨hwidth.1, hwidth.2, r, Bool.eq_false_iff.2 hr, hin⟩

/-- An access has at least one byte (R55). -/
theorem Region.pos_of_widthOk {r : Region} {a n : Nat} (h : r.widthOk a n = true) : 0 < n := by
  rw [Region.widthOk_iff] at h
  split at h <;> omega

/-- The region an access lies wholly inside is the one of its first byte. -/
theorem regionAt?_of_contains {p : Config.Params} {r : Region} {a n : Nat} (hin : r.contains p a n = true)
    (hwidth : r.widthOk a n = true) : regionAt? p a = some r := by
  have hn := Region.pos_of_widthOk hwidth
  rw [Region.contains_iff] at hin
  exact regionAt?_eq_some.2 ⟨hin.1, by omega⟩

/-- What the map forbids is refused, a read and a write alike (R59 points 2 and 3). -/
theorem State.refused_of_not_legalAccess {s : State} {a n : Nat} (h : ¬ legalAccess s.cfg a n) (k : Access) :
    s.refused a n k = true := by
  by_contra hf
  obtain ⟨-, r, -, hin, hwidth, -⟩ := State.refused_eq_false.1 (Bool.eq_false_iff.2 hf)
  exact h (legalAccess_iff.2 ⟨r, hin, hwidth⟩)

/-- What R59's list leaves of an access the map allows: its points 1 and 4 to 6. -/
theorem State.refused_of_contains {s : State} {r : Region} {a n : Nat} (hin : r.contains s.cfg a n = true)
    (hwidth : r.widthOk a n = true) (k : Access) :
    s.refused a n k = (s.busy && k.isWrite || k.isWrite && r.readOnly || s.cursorRefused r k) := by
  simp [State.refused, regionAt?_of_contains hin hwidth, hin, hwidth, Bool.or_assoc]

/-- An access is in a region when its first byte is. -/
theorem Region.eq_iff_of_contains {p : Config.Params} {r : Region} {a n : Nat} (hin : r.contains p a n = true)
    (hwidth : r.widthOk a n = true) (q : Region) : r = q ↔ q.base ≤ a ∧ a < q.base + q.size p := by
  rw [← regionAt?_eq_some, regionAt?_of_contains hin hwidth, Option.some.injEq]

/-- An access is of a register when it starts at the register's own offset. -/
theorem Region.eq_register_iff_of_contains {p : Config.Params} {r q : Region} {a n : Nat}
    (hin : r.contains p a n = true) (hwidth : r.widthOk a n = true) (hq : q.isRegister = true) :
    r = q ↔ a = q.base := by
  constructor
  · rintro rfl
    rw [Region.widthOk_iff, if_pos hq] at hwidth
    exact hwidth.2
  · rintro rfl
    exact Option.some.inj ((regionAt?_of_contains hin hwidth).symm.trans (Region.register_access p hq).1)

/-- The read-only offsets are those of the read-only regions (R57). -/
theorem Region.readOnlyOffset_iff {p : Config.Params} {r : Region} {a n : Nat} (hin : r.contains p a n = true)
    (hwidth : r.widthOk a n = true) : readOnlyOffset a ↔ r.readOnly = true := by
  have hstatus : r = .status ↔ a = 0x08 := Region.eq_register_iff_of_contains hin hwidth rfl
  have hvval : r = .vval ↔ a = 0x20 := Region.eq_register_iff_of_contains hin hwidth rfl
  have hvcnt : r = .vcnt ↔ a = 0x28 := Region.eq_register_iff_of_contains hin hwidth rfl
  have hvsize : r = .vsize ↔ a = 0x38 := Region.eq_register_iff_of_contains hin hwidth rfl
  have hdigest : r = .digest ↔ 0x0300 ≤ a ∧ a < 0x0320 := Region.eq_iff_of_contains hin hwidth .digest
  rw [readOnlyOffset, ← hstatus, ← hvval, ← hvcnt, ← hvsize, ← hdigest]
  cases r <;> simp [Region.readOnly]

/-- The writes that would break the cursor's invariant, by offset (R59 points 5 and 6). -/
theorem State.cursorRefused_write_iff {s : State} {r : Region} {a n : Nat} (hin : r.contains s.cfg a n = true)
    (hwidth : r.widthOk a n = true) (v : Word) :
    s.cursorRefused r (.write v) = true ↔
      (a = 0x10 ∧ (s.cfg.vbufBytes < v.toNat ∨ v.toNat < s.voff.toNat)) ∨ (a = 0x18 ∧ s.vlen.toNat < v.toNat) := by
  have hvlen : r = .vlen ↔ a = 0x10 := Region.eq_register_iff_of_contains hin hwidth rfl
  have hvoff : r = .voff ↔ a = 0x18 := Region.eq_register_iff_of_contains hin hwidth rfl
  rw [← hvlen, ← hvoff]
  cases r <;> simp [State.cursorRefused]

/-- Of R59's list, points 2 and 3 alone refuse a read. -/
theorem State.refused_read_iff (s : State) (a n : Nat) : s.refused a n .read = true ↔ ¬ legalAccess s.cfg a n := by
  refine ⟨fun hf hlegal => ?_, fun h => State.refused_of_not_legalAccess h .read⟩
  obtain ⟨r, hin, hwidth⟩ := legalAccess_iff.1 hlegal
  rw [State.refused_of_contains hin hwidth] at hf
  simp [Access.isWrite, State.cursorRefused] at hf

/-- R59's list for a write, over every state. -/
theorem State.refused_write_iff (s : State) (a n : Nat) (v : Word) :
    s.refused a n (.write v) = true ↔
      (s.busy = true ∨ ¬ legalAccess s.cfg a n ∨ readOnlyOffset a ∨
        (a = 0x10 ∧ (s.cfg.vbufBytes < v.toNat ∨ v.toNat < s.voff.toNat)) ∨ (a = 0x18 ∧ s.vlen.toNat < v.toNat)) := by
  by_cases hlegal : legalAccess s.cfg a n
  · obtain ⟨r, hin, hwidth⟩ := legalAccess_iff.1 hlegal
    rw [Region.readOnlyOffset_iff hin hwidth, ← State.cursorRefused_write_iff hin hwidth v,
      State.refused_of_contains hin hwidth]
    simp [Access.isWrite, hlegal, or_assoc]
  · simp [State.refused_of_not_legalAccess hlegal, hlegal]

/-- Settles O38: the refused reads and writes by the access map, their effect by the two host accesses. -/
theorem refusedAccessesAreTheList : Obligations.RefusedAccessesAreTheList :=
  ⟨State.refused_read_iff, State.refused_write_iff, fun _ _ _ => State.memRead_of_refused,
    fun _ _ _ _ => State.memWrite_of_refused⟩

end Sys2Proof.Machine

namespace Sys2Proof

/-! Which words decode to no command (30_encoding.md R85, R86). -/

/-- The reserved opcodes are those outside R82's map, whatever `LEN` is. -/
theorem instrOf?_eq_none_iff {op len : Byte} :
    instrOf? op len = none ↔ op ∉ ([0x00, 0x01, 0x02, 0x03, 0x04, 0x05, 0x10, 0x11] : List Byte) := by
  simp only [instrOf?, ite_eq_iff, reduceCtorEq, and_false, false_or, and_true, List.mem_cons, List.not_mem_nil,
    or_false, not_or]

/-- A word decodes when, and only when, it passes the four checks of R85. -/
theorem decode_eq_ok_iff {w : Word} {i : Instr} :
    decode w = .ok i ↔ reservedField w = 0 ∧ instrOf? (opField w) (lenField w) = some i ∧
      (opField w ≠ 0x04 → lenField w = 0) ∧ (opField w = 0x04 → (lenField w).toNat ≤ 135) := by
  refine ⟨decode_eq_ok, fun ⟨hrsvd, hinstr, hzero, hlarge⟩ => ?_⟩
  have hlen : ¬ (opField w ≠ 0x04 ∧ lenField w ≠ 0) := fun h => h.2 (hzero h.1)
  have htail : ¬ (opField w = 0x04 ∧ 135 < (lenField w).toNat) := fun h => Nat.not_lt.2 (hlarge h.1) h.2
  rw [decode, if_neg (not_not.2 hrsvd), hinstr]
  exact (if_neg hlen).trans (if_neg htail)

/-- The decoder refuses the words that R85 refuses, check by check. -/
theorem exists_decode_eq_error_iff {w : Word} :
    (∃ e, decode w = .error e) ↔ reservedField w ≠ 0 ∨ instrOf? (opField w) (lenField w) = none ∨
      (opField w ≠ 0x04 ∧ lenField w ≠ 0) ∨ (opField w = 0x04 ∧ 135 < (lenField w).toNat) := by
  have hne : (∃ e, decode w = .error e) ↔ ∀ i, decode w ≠ .ok i := by cases decode w <;> simp
  simp only [hne, ne_eq, decode_eq_ok_iff]
  cases instrOf? (opField w) (lenField w) with
  | none => simp
  | some i =>
    simp only [Option.some.injEq, reduceCtorEq, false_or, ← Nat.not_le]
    constructor
    · intro hrefused
      have hchecks := hrefused i
      tauto
    · intro hillegal j
      tauto

/-- The all-zero word decodes, to `NOP` (R82), and no other word does so (R86). -/
theorem decode_eq_nop_iff {w : Word} : decode w = .ok .nop ↔ w = 0 :=
  ⟨eq_zero_of_decode_nop, fun h => h ▸ rfl⟩

end Sys2Proof

namespace Sys2Proof.Machine

/-! The engine's move on a pending word (60_exceptions.md R200, R202). -/

theorem State.engineMove_of_decode_error {s : State} {w : Word} {e : DecodeError} (hp : s.pend = some w)
    (hd : decode w = .error e) : s.engineMove = .next (s.raise .illegalCommand) := by
  simp [State.engineMove, hp, hd]

theorem State.engineMove_of_decode_ok {s : State} {w : Word} {i : Instr} (hp : s.pend = some w)
    (hd : decode w = .ok i) : s.engineMove = exec i s := by
  simp [State.engineMove, hp, hd]

/-- Settles O10: the illegal words by the checks of R85, the engine's move by what the pending word decodes to. -/
theorem decodeRefusesExactlyIllegalWords : Obligations.DecodeRefusesExactlyIllegalWords := by
  refine ⟨fun w => ?_, rfl, fun _ _ _ => State.engineMove_of_decode_error,
    fun _ _ _ => State.engineMove_of_decode_ok, fun _ => decode_eq_nop_iff⟩
  rw [exists_decode_eq_error_iff, instrOf?_eq_none_iff]
  rfl

end Sys2Proof.Machine

namespace Sys2Proof.Machine

/-! Where the groups at the cursor end, and what the decode answers there (40_varint.md R100 to R102). -/

/-- The groups from index `off` on end after `k` bytes, all inside the input: 1 to 9 of them, of which only the last
has bit 7 clear. -/
structure GroupsEndAt (buf : Nat → Byte) (off len k : Nat) : Prop where
  pos : 1 ≤ k
  le_nine : k ≤ 9
  within : off + k ≤ len
  continues : ∀ i, i + 1 < k → (buf (off + i)).getLsbD 7 = true
  last : (buf (off + (k - 1))).getLsbD 7 = false

/-- The sum of the worths of `k` groups from index `off` on (R100). -/
def groupSum (buf : Nat → Byte) (off k : Nat) : Nat :=
  ∑ i ∈ Finset.range k, (buf (off + i)).toNat % 128 * 2 ^ (7 * i)

/-- Nine groups hold 63 bits (R103). -/
theorem groupSum_lt {k : Nat} (hk : k ≤ 9) (buf : Nat → Byte) (off : Nat) : groupSum buf off k < 2 ^ 63 :=
  calc groupSum buf off k < 2 ^ (7 * k) := (foldl_groupWorth_toNat (fun i => buf (off + i)) k hk).2
    _ ≤ 2 ^ 63 := Nat.pow_le_pow_right (by decide) (by omega)

/-- The groups end in one place only: at the first byte with bit 7 clear. -/
theorem GroupsEndAt.unique {buf : Nat → Byte} {off len k m : Nat} (hk : GroupsEndAt buf off len k)
    (hm : GroupsEndAt buf off len m) : k = m := by
  have hkpos := hk.pos
  have hmpos := hm.pos
  rcases Nat.lt_trichotomy k m with hlt | heq | hgt
  · exact absurd (hm.continues (k - 1) (by omega)) (Bool.eq_false_iff.1 hk.last)
  · exact heq
  · exact absurd (hk.continues (m - 1) (by omega)) (Bool.eq_false_iff.1 hm.last)

/-- Where the groups end, one of the first nine bytes of the input has bit 7 clear. -/
theorem GroupsEndAt.not_all_continue {buf : Nat → Byte} {off len k : Nat} (hk : GroupsEndAt buf off len k) :
    ¬ ∀ i < 9, off + i < len → (buf (off + i)).getLsbD 7 = true := by
  obtain ⟨hpos, hnine, hin, -, hlast⟩ := hk
  exact fun h => Bool.eq_false_iff.1 hlast (h (k - 1) (by omega) (by omega))

/-- The decode finds the end of the groups and sums them, or each of the first nine bytes of the input has bit 7 set. -/
theorem varintDecode_cases (buf : Nat → Byte) (off len : Nat) :
    (∃ k, GroupsEndAt buf off len k ∧ varintDecode buf off len = .ok (BitVec.ofNat 64 (groupSum buf off k)) k) ∨
      ((∀ i < 9, off + i < len → (buf (off + i)).getLsbD 7 = true) ∧ varintDecode buf off len = .malformed) := by
  rcases varintLoop_cases buf off len 9 0 0 with ⟨k, hpos, hnine, hlen, hcont, hlast, hdec⟩ | ⟨hcont, hdec⟩
  · left
    have hk : k ≤ 9 := by omega
    refine ⟨k, ⟨hpos, hk, hlen, fun i hi => hcont i (Nat.zero_le i) hi, hlast⟩, hdec.trans ?_⟩
    congr 1
    apply BitVec.eq_of_toNat_eq
    have hlt := groupSum_lt hk buf off
    rw [BitVec.toNat_ofNat, Nat.mod_eq_of_lt (by omega)]
    exact (foldl_groupWorth_toNat (fun i => buf (off + i)) k hk).1
  · right
    exact ⟨fun i hi hin => hcont i (Nat.zero_le i) (by omega) hin, hdec⟩

theorem varintDecode_of_groupsEndAt {buf : Nat → Byte} {off len k : Nat} (hk : GroupsEndAt buf off len k) :
    varintDecode buf off len = .ok (BitVec.ofNat 64 (groupSum buf off k)) k := by
  rcases varintDecode_cases buf off len with ⟨m, hm, hdec⟩ | ⟨hcont, -⟩
  · rwa [hk.unique hm]
  · exact absurd hcont hk.not_all_continue

theorem varintDecode_of_all_continue {buf : Nat → Byte} {off len : Nat}
    (h : ∀ i < 9, off + i < len → (buf (off + i)).getLsbD 7 = true) : varintDecode buf off len = .malformed := by
  rcases varintDecode_cases buf off len with ⟨k, hk, -⟩ | ⟨-, hdec⟩
  · exact absurd h hk.not_all_continue
  · exact hdec

/-! What VARINT_UNPACK leaves (40_varint.md R102). -/

/-- The state a decode of `k` groups leaves. -/
def State.unpacked (s : State) (k : Nat) : State :=
  State.ended { s with
    vval := BitVec.ofNat 64 (groupSum s.vbufByte s.voff.toNat k)
    vcnt := BitVec.ofNat 64 k
    voff := BitVec.ofNat 64 (s.voff.toNat + k) } .ok

theorem exec_varintUnpack_of_groupsEndAt {s : State} {k : Nat} (hlen : s.vlen.toNat ≤ s.cfg.vbufBytes)
    (hk : GroupsEndAt s.vbufByte s.voff.toNat s.vlen.toNat k) :
    exec .varintUnpack s = .next (s.unpacked k) := by
  have hvoff : s.voff + BitVec.ofNat 64 k = BitVec.ofNat 64 (s.voff.toNat + k) := by
    rw [BitVec.ofNat_add, BitVec.ofNat_toNat, BitVec.setWidth_eq]
  simp [exec, execVarintUnpack, Nat.not_lt.2 hlen, varintDecode_of_groupsEndAt hk, hvoff, State.unpacked,
    State.ended, State.finish]

theorem exec_varintUnpack_of_malformed {s : State} (hlen : s.vlen.toNat ≤ s.cfg.vbufBytes)
    (hdec : varintDecode s.vbufByte s.voff.toNat s.vlen.toNat = .malformed) :
    exec .varintUnpack s = .next (s.ended .malformedVarint) := by
  simp [exec, execVarintUnpack, Nat.not_lt.2 hlen, hdec, State.ended, State.finish]

/-- VARINT_UNPACK answers the decoded groups, or nothing but the code of its failure. -/
theorem exec_varintUnpack_eq_next {s t : State} (h : exec .varintUnpack s = .next t) :
    (∃ k, GroupsEndAt s.vbufByte s.voff.toNat s.vlen.toNat k ∧ t = s.unpacked k) ∨
      t = s.ended .malformedVarint := by
  by_cases hlen : s.vlen.toNat ≤ s.cfg.vbufBytes
  · rcases varintDecode_cases s.vbufByte s.voff.toNat s.vlen.toNat with ⟨k, hk, -⟩ | ⟨-, hdec⟩
    · have hs := exec_varintUnpack_of_groupsEndAt hlen hk
      exact .inl ⟨k, hk, by simpa [hs] using h.symm⟩
    · have hs := exec_varintUnpack_of_malformed hlen hdec
      exact .inr (by simpa [hs] using h.symm)
  · simp [exec, execVarintUnpack, Nat.lt_of_not_le hlen] at h

/-- What a decode of `k` groups writes, as numbers: nothing wraps, since the cursor stays inside the input (R104). -/
theorem GroupsEndAt.unpacked_toNat {s : State} {k : Nat}
    (hk : GroupsEndAt s.vbufByte s.voff.toNat s.vlen.toNat k) :
    (s.unpacked k).vval.toNat = groupSum s.vbufByte s.voff.toNat k ∧ (s.unpacked k).vcnt.toNat = k ∧
      (s.unpacked k).voff.toNat = s.voff.toNat + k := by
  have hsum := groupSum_lt hk.le_nine s.vbufByte s.voff.toNat
  have hnine := hk.le_nine
  have hin := hk.within
  have hvlen := s.vlen.isLt
  refine ⟨Nat.mod_eq_of_lt ?_, Nat.mod_eq_of_lt ?_, Nat.mod_eq_of_lt ?_⟩ <;> omega

/-- Settles O27: the hypotheses say where the groups end. -/
theorem varintUnpackDecodesTheGroups : Obligations.VarintUnpackDecodesTheGroups :=
  fun _ _ hlen hpos hnine hin hcont hlast => exec_varintUnpack_of_groupsEndAt hlen ⟨hpos, hnine, hin, hcont, hlast⟩

/-- Settles O28: without an end of the groups the decode is malformed. -/
theorem varintUnpackReportsMalformedInput : Obligations.VarintUnpackReportsMalformedInput :=
  ⟨rfl, fun _ hlen hcont => exec_varintUnpack_of_malformed hlen (varintDecode_of_all_continue hcont)⟩

/-- Settles O29, by the two outcomes of VARINT_UNPACK. -/
theorem varintUnpackStaysInBounds : Obligations.VarintUnpackStaysInBounds := by
  constructor
  · intro s t h hok
    rcases exec_varintUnpack_eq_next h with ⟨k, hk, rfl⟩ | rfl
    · obtain ⟨hval, hcnt, hoff⟩ := hk.unpacked_toNat
      rw [hval, hcnt, hoff]
      exact ⟨groupSum_lt hk.le_nine _ _, hk.pos, hk.le_nine, rfl, hk.within, rfl⟩
    · cases hok
  · intro s t h herr
    rcases exec_varintUnpack_eq_next h with ⟨k, -, rfl⟩ | rfl
    · exact absurd rfl herr
    · exact ⟨rfl, rfl⟩

/-! The canonical encoding (40_varint.md R106). -/

/-- A value of several groups leaves, after its first, one that fits the bytes left. -/
theorem div_lt_pow_of_not_lt {fuel v : Nat} (hlarge : ¬ v < 128) (hv : v < 128 ^ (fuel + 1)) :
    0 < fuel ∧ v / 128 < 128 ^ fuel :=
  ⟨Nat.pos_of_ne_zero fun h => hlarge (by simpa [h] using hv), Nat.div_lt_of_lt_mul (by rwa [← Nat.pow_succ'])⟩

/-- One byte per digit of the value in base 128. -/
theorem canonBytes_length {fuel v : Nat} (hfuel : 0 < fuel) (hv : v < 128 ^ fuel) :
    (canonBytes fuel v).length = Nat.log 128 v + 1 := by
  induction fuel generalizing v with
  | zero => omega
  | succ fuel ih =>
    by_cases hsmall : v < 128
    · simp [canonBytes, hsmall, Nat.log_of_lt]
    · obtain ⟨hpos, hdiv⟩ := div_lt_pow_of_not_lt hsmall hv
      rw [canonBytes, if_neg hsmall, List.length_cons, ih hpos hdiv,
        Nat.log_of_one_lt_of_le (by decide) (Nat.le_of_not_lt hsmall)]

/-- Byte `i` is the digit of its place, plus 128 where a byte follows. -/
theorem canonBytes_getD_toNat {fuel v i : Nat} (hv : v < 128 ^ fuel) (hi : i < (canonBytes fuel v).length) :
    ((canonBytes fuel v).getD i 0).toNat =
      v / 128 ^ i % 128 + if i + 1 < (canonBytes fuel v).length then 128 else 0 := by
  induction fuel generalizing v i with
  | zero => simp [canonBytes] at hi
  | succ fuel ih =>
    by_cases hsmall : v < 128
    · obtain rfl : i = 0 := by simpa [canonBytes, hsmall] using hi
      simp [canonBytes, hsmall]
      omega
    · obtain ⟨hpos, hdiv⟩ := div_lt_pow_of_not_lt hsmall hv
      simp only [canonBytes, if_neg hsmall, List.length_cons, Nat.add_lt_add_iff_right] at hi ⊢
      cases i with
      | zero =>
        have htail : 0 < (canonBytes fuel (v / 128)).length := by rw [canonBytes_length hpos hdiv]; omega
        simp [htail]
        omega
      | succ i =>
        rw [List.getD_cons_succ, ih hdiv (Nat.lt_of_succ_lt_succ hi), Nat.div_div_eq_div_mul, ← Nat.pow_succ']

theorem canon_length (v : Word) : (canon v).length = Nat.log 128 v.toNat + 1 :=
  canonBytes_length (by decide) (Nat.lt_of_lt_of_le v.isLt (by decide))

theorem canon_length_pos (v : Word) : 0 < (canon v).length := by
  rw [canon_length]
  exact Nat.succ_pos _

theorem canon_getD_toNat {v : Word} {i : Nat} (hi : i < (canon v).length) :
    ((canon v).getD i 0).toNat =
      v.toNat / 128 ^ i % 128 + if i + 1 < (canon v).length then 128 else 0 :=
  canonBytes_getD_toNat (Nat.lt_of_lt_of_le v.isLt (by decide)) hi

/-- The length against a power of 128: `n` bytes hold the values below `128^n`. -/
theorem canon_length_le_iff {v : Word} {n : Nat} (hn : n ≠ 0) : (canon v).length ≤ n ↔ v.toNat < 128 ^ n := by
  rw [canon_length, Nat.succ_le_iff]
  exact ⟨Nat.lt_pow_of_log_lt (by decide), Nat.log_lt_of_lt_pow' hn⟩

/-- One byte per started group of 7 bits. -/
theorem canon_length_eq_size (v : Word) :
    (canon v).length = if v.toNat = 0 then 1 else (Nat.size v.toNat + 6) / 7 := by
  split
  · next hzero => rw [canon_length, hzero, Nat.log_zero_right]
  · next hne =>
    have hsize := Nat.size_pos.2 (Nat.pos_of_ne_zero hne)
    have hlog : Nat.log 2 v.toNat = Nat.size v.toNat - 1 :=
      Nat.log_eq_of_pow_le_of_lt_pow (Nat.lt_size.1 (by omega))
        (by rw [Nat.sub_add_cancel hsize]; exact Nat.lt_size_self _)
    rw [canon_length, show (128 : Nat) = 2 ^ 7 from rfl, Nat.log_pow_left, hlog]
    omega

/-- Each byte holds the group of its place. -/
theorem canon_getD_group {v : Word} {i : Nat} (hi : i < (canon v).length) :
    ((canon v).getD i 0).extractLsb' 0 7 = v.extractLsb' (7 * i) 7 := by
  apply BitVec.eq_of_toNat_eq
  rw [BitVec.extractLsb'_toNat, BitVec.extractLsb'_toNat, canon_getD_toNat hi, Nat.shiftRight_eq_div_pow,
    Nat.shiftRight_eq_div_pow, Nat.pow_mul, show 2 ^ 7 = 128 from rfl, Nat.pow_zero, Nat.div_one]
  split <;> omega

/-- Bit 7 is set on every byte but the last. -/
theorem canon_getD_continues {v : Word} {i : Nat} (hi : i < (canon v).length) :
    ((canon v).getD i 0).getLsbD 7 = decide (i + 1 < (canon v).length) := by
  have hmsb : ((canon v).getD i 0).getLsbD 7 = ((canon v).getD i 0).msb :=
    (BitVec.msb_eq_getLsbD_last _).symm
  rw [hmsb, BitVec.msb_eq_decide, canon_getD_toNat hi, decide_eq_decide]
  split <;> omega

/-- The digits of a number in base 128, each at its place, make up the number. -/
theorem sum_digits_eq_mod (v n : Nat) :
    ∑ i ∈ Finset.range n, v / 128 ^ i % 128 * 2 ^ (7 * i) = v % 128 ^ n := by
  induction n with
  | zero => simp [Nat.mod_one]
  | succ n ih => rw [Finset.sum_range_succ, ih, Nat.mod_pow_succ, Nat.pow_mul, Nat.mul_comm (v / _ % _)]

section CanonicalInput

variable {v : Word} {buf : Nat → Byte} (hbuf : ∀ i < (canon v).length, buf i = (canon v).getD i 0)
include hbuf

/-- A canonical encoding at the cursor is groups that end with its last byte. -/
theorem groupsEndAt_canon (hv : v.toNat < 2 ^ 63) : GroupsEndAt buf 0 (canon v).length (canon v).length where
  pos := canon_length_pos v
  le_nine := (canon_length_le_iff (by decide)).2 hv
  within := by omega
  continues i hi := by
    rw [Nat.zero_add, hbuf i (by omega), canon_getD_continues (by omega), decide_eq_true hi]
  last := by
    have hpos := canon_length_pos v
    rw [Nat.zero_add, hbuf _ (by omega), canon_getD_continues (by omega), decide_eq_false_iff_not]
    omega

/-- The groups of a canonical encoding sum to its value. -/
theorem groupSum_canon : groupSum buf 0 (canon v).length = v.toNat := by
  have hdigit : ∀ i ∈ Finset.range (canon v).length,
      (buf (0 + i)).toNat % 128 * 2 ^ (7 * i) = v.toNat / 128 ^ i % 128 * 2 ^ (7 * i) := by
    intro i hi
    have hi := Finset.mem_range.1 hi
    rw [Nat.zero_add, hbuf i hi, canon_getD_toNat hi]
    congr 1
    split <;> omega
  rw [groupSum, Finset.sum_congr rfl hdigit, sum_digits_eq_mod,
    Nat.mod_eq_of_lt ((canon_length_le_iff (canon_length_pos v).ne').1 (Nat.le_refl _))]

end CanonicalInput

/-- Settles O30: length, groups and continuation bits of the encoding, and the decode where the groups end. -/
theorem canonicalEncodingDecodes : Obligations.CanonicalEncodingDecodes := by
  intro v buf hv
  refine ⟨canon_length_eq_size v, fun _ => canon_getD_group, fun hbuf => ?_⟩
  rw [varintDecode_of_groupsEndAt (groupsEndAt_canon hbuf hv), groupSum_canon hbuf, BitVec.ofNat_toNat,
    BitVec.setWidth_eq]

/-! The packed size (40_varint.md R108 to R110). -/

/-- The packed size is the canonical length, cut off at 8 (R110). -/
theorem packedSize_eq_min (m : Word) : packedSize m = min (canon m).length 8 := by
  have hpos := canon_length_pos m
  have hrow : ∀ n ≠ 0, (canon m).length ≤ n ↔ m.toNat < 128 ^ n := fun _ => canon_length_le_iff
  have h1 := hrow 1 (by decide)
  have h2 := hrow 2 (by decide)
  have h3 := hrow 3 (by decide)
  have h4 := hrow 4 (by decide)
  have h5 := hrow 5 (by decide)
  have h6 := hrow 6 (by decide)
  have h7 := hrow 7 (by decide)
  unfold packedSize
  split_ifs <;> omega

/-- The packed size of a value is that of its row (R109). -/
theorem packedSize_of_row {m : Word} {row : Nat × Nat × Nat} (hrow : row ∈ packedSizeTable)
    (hfrom : row.1 ≤ m.toNat) (hto : m.toNat ≤ row.2.1) : packedSize m = row.2.2 := by
  simp only [packedSizeTable, List.mem_cons, List.not_mem_nil, or_false] at hrow
  unfold packedSize
  rcases hrow with rfl | rfl | rfl | rfl | rfl | rfl | rfl | rfl
  all_goals
    simp only at hfrom hto ⊢
    split_ifs <;> omega

/-- The rows leave no 64-bit value out (R109). -/
theorem exists_packedSize_row (m : Word) :
    ∃ row ∈ packedSizeTable, row.1 ≤ m.toNat ∧ m.toNat ≤ row.2.1 := by
  have hm := m.isLt
  simp only [packedSizeTable, List.mem_cons, List.not_mem_nil, or_false, exists_eq_or_imp, exists_eq_left]
  omega

theorem exec_varintSize (s : State) :
    exec .varintSize s = .next (State.ended { s with vsize := BitVec.ofNat 64 (packedSize s.vin) } .ok) := rfl

/-- Settles O31, by the row of `VIN`. -/
theorem varintSizeFollowsTheTable : Obligations.VarintSizeFollowsTheTable := by
  refine ⟨rfl, exists_packedSize_row, fun s row hrow hfrom hto => ?_⟩
  rw [exec_varintSize, packedSize_of_row hrow hfrom hto]

/-- Settles O32: the canonical length crosses 8 at 2^56 and 9 at 2^63. -/
theorem packedSizeAgainstCanonicalLength : Obligations.PackedSizeAgainstCanonicalLength := by
  intro m
  have hm := m.isLt
  have h8 : (canon m).length ≤ 8 ↔ m.toNat < 128 ^ 8 := canon_length_le_iff (by decide)
  have h9 : (canon m).length ≤ 9 ↔ m.toNat < 128 ^ 9 := canon_length_le_iff (by decide)
  have h10 : (canon m).length ≤ 10 ↔ m.toNat < 128 ^ 10 := canon_length_le_iff (by decide)
  rw [packedSize_eq_min]
  refine ⟨fun hlt => ?_, fun hge hlt => ?_, fun hge => ?_⟩ <;> omega

end Sys2Proof.Machine

namespace Sys2Proof.Machine

/-! The four steps of a round, by coordinate (41_keccak_permutation.md R132 to R138). -/

theorem rotl64_eq_rotateLeft (a : Word) {n : Nat} (hn : n < 64) : rotl64 a n = a.rotateLeft n := by
  by_cases hzero : n = 0
  · simp [rotl64, hzero, BitVec.rotateLeft_def, BitVec.ushiftRight_eq_zero]
  · simp [rotl64, hzero, BitVec.rotateLeft_def, Nat.mod_eq_of_lt hn]

theorem getElem_thetaC (A : Lanes) (x : Fin 5) :
    (thetaC A)[x] = lane A x 0 ^^^ lane A x 1 ^^^ lane A x 2 ^^^ lane A x 3 ^^^ lane A x 4 :=
  getElem_ofColumn _ x

theorem getElem_thetaD (C : Vector Word 5) (x : Fin 5) : (thetaD C)[x] = C[x - 1] ^^^ rotl64 C[x + 1] 1 :=
  getElem_ofColumn _ x

theorem lane_theta (A : Lanes) (x y : Fin 5) : lane (theta A) x y = lane A x y ^^^ (thetaD (thetaC A))[x] :=
  lane_ofColumnRow _ x y

/-- The one column of row `y` that rho+pi sends to row `v`. -/
theorem rhoPi_row_eq_iff (x y v : Fin 5) : 2 * x + 3 * y = v ↔ x = y + 3 * v := by
  revert x y v
  decide

theorem lane_rhoPi (A : Lanes) (x y : Fin 5) :
    lane (rhoPi A) y (2 * x + 3 * y) = rotl64 (lane A x y) (rhoOffset x y) := by
  rw [rhoPi, lane_ofColumnRow, ← (rhoPi_row_eq_iff x y _).1 rfl]

/-- Each row of the move table is the equation of rho+pi at one coordinate (R134). -/
theorem rhoPiMoves_coordinates : ∀ m ∈ rhoPiMoves, ∃ x y : Fin 5,
    m.1.val = x.val + 5 * y.val ∧ m.2.1.val = y.val + 5 * (2 * x + 3 * y).val ∧ m.2.2 = rhoOffset x y := by
  decide

theorem getElem_rhoPi (A : Lanes) {m : Fin 25 × Fin 25 × Nat} (hm : m ∈ rhoPiMoves) :
    (rhoPi A)[m.2.1] = rotl64 A[m.1] m.2.2 := by
  obtain ⟨x, y, hsource, hdest, hoffset⟩ := rhoPiMoves_coordinates m hm
  have hmove := lane_rhoPi A x y
  simpa only [lane, Fin.getElem_fin, ← hsource, ← hdest, ← hoffset] using hmove

theorem lane_chi (B : Lanes) (x y : Fin 5) :
    lane (chi B) x y = lane B x y ^^^ (~~~(lane B (x + 1) y) &&& lane B (x + 2) y) :=
  lane_ofColumnRow _ x y

theorem getElem_iota_zero (A : Lanes) (rc : Word) : (iota A rc)[0] = A[0] ^^^ rc := Vector.getElem_set_self _

theorem getElem_iota_of_ne_zero (A : Lanes) (rc : Word) {i : Fin 25} (hi : i ≠ 0) : (iota A rc)[i] = A[i] :=
  Vector.getElem_set_ne _ _ fun h => hi (Fin.ext h.symm)

/-! The rounds (41_keccak_permutation.md R131). -/

/-- The lanes after the first `r` rounds. -/
def lanesAfter (A : Lanes) (r : Nat) : Lanes := (roundConstants.take r).foldl keccakRound A

theorem lanesAfter_succ (A : Lanes) {r : Nat} (hr : r < 24) :
    lanesAfter A (r + 1) = keccakRound (lanesAfter A r) (roundConstants.getD r 0) := by
  have hlen : r < roundConstants.length := hr
  rw [lanesAfter, List.take_succ_eq_append_getElem hlen, List.foldl_append, List.getD_eq_getElem _ _ hlen]
  rfl

theorem keccakF_eq_lanesAfter (A : Lanes) : keccakF A = lanesAfter A 24 := keccakF_eq_foldl A

theorem exec_keccakPerm (s : State) :
    exec .keccakPerm s = .next (State.ended { s with lanes := keccakF s.lanes } .ok) := rfl

/-- Settles O21: the sequence is the lanes after the first rounds. -/
theorem keccakPermRunsAllRounds : Obligations.KeccakPermRunsAllRounds := by
  refine ⟨rfl, fun s => ⟨lanesAfter s.lanes, rfl, fun r hr => lanesAfter_succ s.lanes hr, ?_⟩⟩
  rw [exec_keccakPerm, keccakF_eq_lanesAfter]

/-- Settles O16: `C` and `D` of the statement are the model's, its shifts the rotation by 1. -/
theorem thetaFollowsItsEquation : Obligations.ThetaFollowsItsEquation := by
  intro A C D hC hD x y
  have hparity : ∀ x, (thetaC A)[x] = C x := fun x => (getElem_thetaC A x).trans (hC x).symm
  rw [lane_theta, getElem_thetaD, hparity, hparity, hD]
  rfl

/-- Settles O17: by coordinates, the source of each destination, and the table by coordinates. -/
theorem rhoPiMovesEachLane : Obligations.RhoPiMovesEachLane := by
  refine ⟨lane_rhoPi, fun u v => ⟨u + 3 * v, u, ⟨rfl, (rhoPi_row_eq_iff _ _ _).2 rfl⟩, ?_⟩,
    fun A _ hm => getElem_rhoPi A hm, fun a _ hn => rotl64_eq_rotateLeft a hn⟩
  rintro x _ rfl hv
  exact ⟨(rhoPi_row_eq_iff x _ v).1 hv, rfl⟩

/-- Settles O18: chi is written by coordinate. -/
theorem chiFollowsItsEquation : Obligations.ChiFollowsItsEquation := lane_chi

/-- Settles O19, by lane 0 and the other lanes. -/
theorem iotaChangesLaneZeroAlone : Obligations.IotaChangesLaneZeroAlone :=
  fun A rc => ⟨getElem_iota_zero A rc, fun _ hi => getElem_iota_of_ne_zero A rc hi⟩

/-! The generators of the two tables (41_keccak_permutation.md R139). -/

theorem roundConstants_eq_generatedRC : ∀ r : Fin 24, (roundConstants.getD r.val 0).toNat = generatedRC r.val := by
  decide

theorem rhoOffset_rhoWalk : ∀ t : Fin 24,
    rhoOffset (rhoWalk t.val).1 (rhoWalk t.val).2 = (t.val + 1) * (t.val + 2) / 2 % 64 := by
  decide

theorem exists_rhoWalk_eq : ∀ x y : Fin 5, (x ≠ 0 ∨ y ≠ 0) → ∃ t : Fin 24, rhoWalk t.val = (x, y) := by
  decide

/-- Settles O20, one generator at a time. -/
theorem tablesMatchTheirGenerators : Obligations.TablesMatchTheirGenerators :=
  ⟨roundConstants_eq_generatedRC, rhoOffset_rhoWalk, exists_rhoWalk_eq, rfl⟩

end Sys2Proof.Machine

namespace Sys2Proof

/-! The words of KECCAK_ABSORB_FINAL, with tail lengths in and out of range (30_encoding.md R82, R83, R85). -/

theorem decode_encode_keccakAbsorbFinal {t : Byte} (ht : t.toNat ≤ 135) :
    decode (encode (.keccakAbsorbFinal t)) = .ok (.keccakAbsorbFinal t) := by
  obtain ⟨hop, hlen, hrsvd⟩ := Laws.EncodedFields.keccakAbsorbFinal t
  rw [decode_eq_ok_iff, hop, hlen]
  exact ⟨hrsvd, rfl, fun hne => absurd rfl hne, fun _ => ht⟩

theorem exists_decode_error_of_long_tail {t : Byte} (ht : 135 < t.toNat) :
    ∃ e, decode (encode (.keccakAbsorbFinal t)) = .error e := by
  obtain ⟨hop, hlen, -⟩ := Laws.EncodedFields.keccakAbsorbFinal t
  rw [exists_decode_eq_error_iff, hop, hlen]
  exact .inr (.inr (.inr ⟨rfl, ht⟩))

end Sys2Proof

namespace Sys2Proof.Machine

/-! The padded tail, byte by byte (42_keccak_sponge.md R165). -/

theorem padByte_of_lt (tail : Nat → Byte) {t j : Nat} (ht : t ≤ 135) (hj : j < t) : padByte tail t j = tail j := by
  have hlast : j ≠ 135 := by omega
  simp [padByte, hj, hlast]

theorem padByte_self (tail : Nat → Byte) {t : Nat} (ht : t < 135) : padByte tail t t = 0x01 := by
  simp [padByte, ht.ne]

theorem padByte_between (tail : Nat → Byte) {t j : Nat} (htj : t < j) (hj : j < 135) : padByte tail t j = 0x00 := by
  simp [padByte, htj.not_gt, htj.ne', hj.ne]

theorem padByte_last (tail : Nat → Byte) {t : Nat} (ht : t < 135) : padByte tail t 135 = 0x00 ||| 0x80 := by
  simp [padByte, ht.not_gt, ht.ne']

/-- With the longest tail, 0x01 and 0x80 fall into the same byte. -/
theorem padByte_longest (tail : Nat → Byte) : padByte tail 135 135 = 0x01 ||| 0x80 := rfl

theorem laneByte_of_lt (A : Lanes) {k : Nat} (hk : k / 8 < 25) : laneByte A k = wordByte A[k / 8] (k % 8) := dif_pos hk

/-! The sponge commands (42_keccak_sponge.md R160 to R166). -/

theorem exec_keccakInit (s : State) :
    exec .keccakInit s = .next (State.ended { s with lanes := Vector.replicate 25 0 } .ok) := rfl

theorem exec_keccakAbsorb (s : State) :
    exec .keccakAbsorb s = .next (State.ended { s with lanes := keccakF (xorBlock s.lanes s.mbByte) } .ok) := rfl

theorem exec_keccakAbsorbFinal (s : State) {t : Byte} (ht : t.toNat ≤ 135) :
    exec (.keccakAbsorbFinal t) s =
      .next (State.ended { s with lanes := keccakF (xorBlock s.lanes (s.finalBlock t.toNat)) } .ok) :=
  if_pos ht

theorem exec_keccakSqueeze (s : State) :
    exec .keccakSqueeze s = .next (State.ended { s with digest := squeezeBytes s.lanes } .ok) := rfl

/-- Settles O22: `X` is the block of `MB` XORed in, lane by lane. -/
theorem keccakAbsorbXorsTheBlock : Obligations.KeccakAbsorbXorsTheBlock :=
  ⟨rfl, fun s => ⟨xorBlock s.lanes s.mbByte, getElem_xorBlock_rate _ _, getElem_xorBlock_capacity _ _,
    exec_keccakAbsorb s⟩⟩

/-- Settles O23: `P` is the padded tail and `X` that block XORed in; a longer tail's word does not decode. -/
theorem keccakAbsorbFinalPadsTheTail : Obligations.KeccakAbsorbFinalPadsTheTail := by
  refine ⟨fun s t ht => ?_, fun s t ht hpend => ?_⟩
  · refine ⟨decode_encode_keccakAbsorbFinal ht, s.finalBlock t.toNat, xorBlock s.lanes (s.finalBlock t.toNat),
      fun j hj => padByte_of_lt _ ht hj,
      fun hshort => ⟨padByte_self _ hshort, fun j htj hj => padByte_between _ htj hj, padByte_last _ hshort⟩,
      fun hlongest => ?_, getElem_xorBlock_rate _ _, getElem_xorBlock_capacity _ _, exec_keccakAbsorbFinal s ht⟩
    rw [hlongest]
    exact padByte_longest _
  · obtain ⟨e, hdecode⟩ := exists_decode_error_of_long_tail ht
    exact State.engineMove_of_decode_error hpend hdecode

/-- Settles O15: the lanes are 25 zeros. -/
theorem keccakInitZeroesTheLanes : Obligations.KeccakInitZeroesTheLanes :=
  ⟨rfl, fun s => ⟨Vector.replicate 25 0, fun i => Vector.getElem_replicate i.isLt, exec_keccakInit s⟩⟩

/-- Settles O26: each byte of a squeeze is a byte of the window onto `S`. -/
theorem keccakSqueezeCopiesFourLanes : Obligations.KeccakSqueezeCopiesFourLanes :=
  ⟨rfl, fun s => ⟨squeezeBytes s.lanes,
    fun j hj => (getElem_squeezeBytes s.lanes j).trans (laneByte_of_lt s.lanes hj), exec_keccakSqueeze s⟩⟩

end Sys2Proof.Machine

namespace Sys2Proof.Machine

/-! `NOP`, the clearing of `HERR` (43_system.md R190). -/

theorem exec_nop (s : State) : exec .nop s = .next (State.ended { s with herr := false } .ok) := rfl

theorem State.engineMove_herr_of_decode_error {s t : State} {w : Word} {e : DecodeError} (hp : s.pend = some w)
    (hd : decode w = .error e) (h : s.engineMove = .next t) : t.herr = s.herr := by
  obtain rfl : s.raise .illegalCommand = t := by simpa [State.engineMove_of_decode_error hp hd] using h
  rfl

/-- While busy no write to a register is taken, whatever its value (20_memory.md R59). -/
theorem State.memWrite_register_of_busy {s : State} {r : Region} (hr : r.isRegister = true)
    (hi : s.inReset = false) (hb : s.busy = true) (v : Word) : s.memWrite r.base 8 v = s.refuseAccess :=
  State.memWrite_of_refused hi (by rw [s.refused_write_register hr, hb, Bool.true_or, Bool.true_or])

/-- Settles O14: the command, its one word (encoded as 0), the illegal words, the steps by whose move is next, and the
write to `CMD` while busy. -/
theorem nopClearsTheAccessError : Obligations.NopClearsTheAccessError :=
  ⟨exec_nop, fun _ => decode_eq_nop_iff, fun _ _ _ _ => State.engineMove_herr_of_decode_error,
    fun _ _ => nextTurn_of_step_clears_herr,
    fun _ hb hi => State.memWrite_register_of_busy (r := .cmd) rfl hi hb 0⟩

end Sys2Proof.Machine

namespace Sys2Proof.Machine

/-! How a command fails: its code and nothing else (60_exceptions.md R202, R204, R205). -/

/-- The padding does not take a tail of more than 135 bytes (42_keccak_sponge.md R164). -/
theorem exec_keccakAbsorbFinal_of_long_tail (s : State) {t : Byte} (ht : ¬ t.toNat ≤ 135) :
    exec (.keccakAbsorbFinal t) s = .next (s.ended .illegalCommand) :=
  if_neg ht

/-- A `VLEN` that is not inside `VBUF` stops the decode (10_state.md R27). -/
theorem exec_varintUnpack_of_illegal_vlen {s : State} (hlen : ¬ s.vlen.toNat ≤ s.cfg.vbufBytes) :
    exec .varintUnpack s = .fault .decodeInputOutsideVbuf :=
  if_pos (Nat.lt_of_not_le hlen)

/-- A command succeeds or does nothing but end with its code. -/
theorem exec_err_eq_ok_or_eq_ended {i : Instr} {s t : State} (h : exec i s = .next t) :
    t.err = .ok ∨ t = s.ended t.err := by
  cases i with
  | keccakAbsorbFinal len =>
    by_cases hlen : len.toNat ≤ 135
    · cases (exec_keccakAbsorbFinal s hlen).symm.trans h
      exact .inl rfl
    · cases (exec_keccakAbsorbFinal_of_long_tail s hlen).symm.trans h
      exact .inr rfl
  | varintUnpack =>
    rcases exec_varintUnpack_eq_next h with ⟨_, -, rfl⟩ | rfl
    · exact .inl rfl
    · exact .inr rfl
  | nop | keccakInit | keccakPerm | keccakAbsorb | keccakSqueeze | varintSize =>
    cases h
    exact .inl rfl

/-- Settles O36: a command with a nonzero code has not succeeded. -/
theorem errorsArePrecise : Obligations.ErrorsArePrecise := fun _ _ _ h hcode =>
  (exec_err_eq_ok_or_eq_ended h).resolve_left fun hok => hcode (congrArg ErrCode.code hok)

/-- VARINT_UNPACK fails on a malformed input inside `VBUF` alone, and leaves all but its outcome as it was. -/
theorem varintDecode_eq_malformed_of_exec {s t : State} (h : exec .varintUnpack s = .next t)
    (herr : t.err = .malformedVarint) :
    s.vlen.toNat ≤ s.cfg.vbufBytes ∧ varintDecode s.vbufByte s.voff.toNat s.vlen.toNat = .malformed ∧
      t = s.ended .malformedVarint := by
  by_cases hlen : s.vlen.toNat ≤ s.cfg.vbufBytes
  · rcases varintDecode_cases s.vbufByte s.voff.toNat s.vlen.toNat with ⟨k, hk, -⟩ | ⟨-, hdec⟩
    · cases (exec_varintUnpack_of_groupsEndAt hlen hk).symm.trans h
      cases herr
    · cases (exec_varintUnpack_of_malformed hlen hdec).symm.trans h
      exact ⟨hlen, hdec, rfl⟩
  · cases (exec_varintUnpack_of_illegal_vlen hlen).symm.trans h

/-- Settles O37: the second decode reads the input the first one found malformed, since a failure moves nothing. -/
theorem failedDecodeFailsAgain : Obligations.FailedDecodeFailsAgain := by
  intro s t u h herr hcfg hvlen hvoff hbuf
  obtain ⟨hlen, hdec, rfl⟩ := varintDecode_eq_malformed_of_exec h herr
  apply exec_varintUnpack_of_malformed
  · rwa [hcfg, hvlen]
  · rwa [funext hbuf, hvoff, hvlen]

/-- At its turn the engine moves, on the state less the move taken off the list (60_exceptions.md R200). -/
theorem step_of_nextTurn_engine {s : State} (h : s.nextTurn = .engine) : step s = s.popTurn.engineMove := by
  rw [step, h]
  rfl

/-- Settles O13: the engine's move on a word that does not decode. -/
theorem illegalWordOnlyReportsItsCode : Obligations.IllegalWordOnlyReportsItsCode :=
  ⟨rfl, fun s _ _ hturn hp hd =>
    (step_of_nextTurn_engine hturn).trans (State.engineMove_of_decode_error (s := s.popTurn) hp hd)⟩

end Sys2Proof.Machine

namespace Sys2Proof

/-! Decoding and encoding are inverse (30_encoding.md R81 to R86). -/

theorem encodedFields (i : Instr) : Laws.EncodedFields.Statement i := by
  cases i with
  | keccakAbsorbFinal len => exact Laws.EncodedFields.keccakAbsorbFinal len
  | nop | keccakInit | keccakPerm | keccakAbsorb | keccakSqueeze | varintUnpack | varintSize =>
    exact ⟨rfl, rfl, rfl⟩

/-- Words with the same three fields are the same word. -/
theorem eq_of_fields {v w : Word} (hop : opField v = opField w) (hlen : lenField v = lenField w)
    (hrsvd : reservedField v = reservedField w) : v = w := by
  rw [← fields_append v, ← fields_append w, hop, hlen, hrsvd]

/-- The opcode map finds each command at its own fields (R82). -/
theorem instrOf?_encodedFields (i : Instr) :
    instrOf? (Laws.EncodedFields.opcode i) (Laws.EncodedFields.len i) = some i := by
  cases i <;> rfl

/-- A command read off the opcode map has the opcode it was found at, and the `LEN` if it has one (R82, R83). -/
theorem fields_of_instrOf? {op len : Byte} {i : Instr} (h : instrOf? op len = some i) :
    Laws.EncodedFields.opcode i = op ∧
      Laws.EncodedFields.len i = if op = 0x04 then len else 0 := by
  unfold instrOf? at h
  split_ifs at h <;> cases h
  all_goals
    subst op
    exact ⟨rfl, rfl⟩

/-- A term is well-formed when its fields pass the last two checks of R85. -/
theorem wellFormed_iff_len (i : Instr) :
    i.wellFormed = true ↔ (Laws.EncodedFields.opcode i ≠ 0x04 → Laws.EncodedFields.len i = 0) ∧
      (Laws.EncodedFields.opcode i = 0x04 → (Laws.EncodedFields.len i).toNat ≤ 135) := by
  cases i <;> simp [Instr.wellFormed, Laws.EncodedFields.opcode, Laws.EncodedFields.len]

theorem decode_encode {i : Instr} (h : i.wellFormed = true) : decode (encode i) = .ok i := by
  obtain ⟨hop, hlen, hrsvd⟩ := encodedFields i
  rw [decode_eq_ok_iff, hop, hlen]
  exact ⟨hrsvd, instrOf?_encodedFields i, (wellFormed_iff_len i).1 h⟩

theorem encode_of_decode {w : Word} {i : Instr} (h : decode w = .ok i) : encode i = w := by
  obtain ⟨hrsvd, hinstr, hzero, -⟩ := decode_eq_ok h
  obtain ⟨hop, hlen⟩ := fields_of_instrOf? hinstr
  obtain ⟨hopEnc, hlenEnc, hrsvdEnc⟩ := encodedFields i
  refine eq_of_fields (hopEnc.trans hop) (hlenEnc.trans (hlen.trans ?_)) (hrsvdEnc.trans hrsvd.symm)
  split
  · rfl
  · next hne => exact (hzero hne).symm

theorem wellFormed_of_decode {w : Word} {i : Instr} (h : decode w = .ok i) : i.wellFormed = true := by
  obtain ⟨-, -, hzero, hlarge⟩ := decode_eq_ok h
  obtain ⟨hop, hlen, -⟩ := encodedFields i
  rw [encode_of_decode h] at hop hlen
  rw [wellFormed_iff_len, ← hop, ← hlen]
  exact ⟨hzero, hlarge⟩

/-- Settles O7: the fields of the encoded word pass the checks of R85, and the opcode map finds the command at them. -/
theorem decodeInvertsEncode : Obligations.DecodeInvertsEncode := fun _ => decode_encode

/-- Settles O8: the word and the encoding of the command it decodes to agree in all three fields. -/
theorem encodeInvertsDecode : Obligations.EncodeInvertsDecode :=
  fun _ _ h => ⟨encode_of_decode h, wellFormed_of_decode h⟩

/-- Settles O9: decoding the bytes of a word is decoding the word. -/
theorem decodeReadsStoredBytes : Obligations.DecodeReadsStoredBytes := by
  intro i rest h
  rw [decodeBytes_wordBytes, decode_encode h]
  rfl

/-- Settles O11: each word, written out in R82, is the encoding of its command. -/
theorem specWordsDecode : Obligations.SpecWordsDecode :=
  ⟨decode_encode (i := .nop) rfl, decode_encode (i := .keccakAbsorb) rfl,
    decode_encode (i := .keccakAbsorbFinal 135) rfl, decode_encode (i := .keccakSqueeze) rfl,
    decode_encode (i := .varintUnpack) rfl⟩

end Sys2Proof

namespace Sys2Proof.Machine

/-- Settles O12: at the engine's turn the engine moves, and its move on a word that decodes is the command's. -/
theorem stepRunsTheDecodedCommand : Obligations.StepRunsTheDecodedCommand := fun s _ _ hturn hp hd =>
  (step_of_nextTurn_engine hturn).trans (State.engineMove_of_decode_ok (s := s.popTurn) hp hd)

/-- Settles O24: the command fails by its tail length, and what decodes is well-formed. -/
theorem keccakAbsorbFinalRefusesLongTails : Obligations.KeccakAbsorbFinalRefusesLongTails := by
  refine fun s t ht => ⟨exec_keccakAbsorbFinal_of_long_tail s (Nat.not_le.2 ht), fun w hd => ?_⟩
  have hwf := wellFormed_of_decode hd
  rw [Instr.wellFormed, decide_eq_true_iff] at hwf
  omega

end Sys2Proof.Machine

namespace Sys2Proof.Machine

/-! What a command that completes leaves as it was, field by field (30_encoding.md R84), and its outcome
(10_state.md R35, R36). -/

/-- The frame and the outcome of a command `i` that takes `s` to `t`. -/
structure State.CommandFrame (i : Instr) (s t : State) : Prop where
  lanes : i ∉ [Instr.keccakInit, .keccakPerm, .keccakAbsorb] → (∀ len, i ≠ .keccakAbsorbFinal len) → t.lanes = s.lanes
  digest : i ≠ .keccakSqueeze → t.digest = s.digest
  decoded : i ≠ .varintUnpack → t.vval = s.vval ∧ t.vcnt = s.vcnt ∧ t.voff = s.voff
  vsize : i ≠ .varintSize → t.vsize = s.vsize
  herr : i ≠ .nop → t.herr = s.herr
  vlen : t.vlen = s.vlen
  vin : t.vin = s.vin
  cmd : t.cmd = s.cmd
  cfg : t.cfg = s.cfg
  mem : t.mem = s.mem
  resetDraw : t.resetDraw = s.resetDraw
  pend : t.pend = none
  done : t.done = true
  raised : t.err.raised = true

/-- A command that ends with a code and writes nothing has every frame. -/
theorem State.commandFrame_ended (i : Instr) (s : State) {c : ErrCode} (hc : c.raised = true) :
    State.CommandFrame i s (s.ended c) where
  lanes _ _ := rfl
  digest _ := rfl
  decoded _ := ⟨rfl, rfl, rfl⟩
  vsize _ := rfl
  herr _ := rfl
  vlen := rfl
  vin := rfl
  cmd := rfl
  cfg := rfl
  mem := rfl
  resetDraw := rfl
  pend := rfl
  done := rfl
  raised := hc

/-- No command writes outside its own unit. -/
theorem exec_commandFrame {i : Instr} {s t : State} (h : exec i s = .next t) : State.CommandFrame i s t := by
  cases i with
  | keccakAbsorbFinal len =>
    by_cases hlen : len.toNat ≤ 135
    · cases (exec_keccakAbsorbFinal s hlen).symm.trans h
      constructor <;> simp [State.ended, ErrCode.raised]
    · cases (exec_keccakAbsorbFinal_of_long_tail s hlen).symm.trans h
      exact State.commandFrame_ended _ s rfl
  | varintUnpack =>
    rcases exec_varintUnpack_eq_next h with ⟨_, -, rfl⟩ | rfl
    · constructor <;> simp [State.unpacked, State.ended, ErrCode.raised]
    · exact State.commandFrame_ended _ s rfl
  | nop | keccakInit | keccakPerm | keccakAbsorb | keccakSqueeze | varintSize =>
    cases h
    constructor <;> simp [ErrCode.raised]

/-- A byte of a buffer depends on the memory and its draw alone. -/
theorem State.readByte_congr {s t : State} (hmem : t.mem = s.mem) (hdraw : t.resetDraw = s.resetDraw) (a : Nat) :
    t.readByte a = s.readByte a := by
  rw [State.readByte, State.readByte, hmem, hdraw]

/-- Settles O33, by the frame of memory and draw. -/
theorem noCommandWritesTheBuffers : Obligations.NoCommandWritesTheBuffers := fun _ _ _ h =>
  have hframe := exec_commandFrame h
  State.readByte_congr hframe.mem hframe.resetDraw

/-- Settles O34, by the frame. -/
theorem commandsWriteOnlyTheirOwnUnit : Obligations.CommandsWriteOnlyTheirOwnUnit := by
  intro i s t h
  obtain ⟨hlanes, hdigest, hdecoded, hvsize, hherr, hvlen, hvin, hcmd, hcfg, -⟩ := exec_commandFrame h
  exact ⟨hlanes, hdigest, hdecoded, hvsize, hherr, hvlen, hvin, hcmd, hcfg⟩

/-- `BUSY` is the valid bit of `PEND` (10_state.md R35). -/
theorem State.busy_eq_false_iff (s : State) : s.busy = false ↔ s.pend = none := by
  rw [State.busy, Option.isSome_eq_false_iff, Option.isNone_iff_eq_none]

/-- Settles O35: nothing is pending any more, and the code is one that the block raises. -/
theorem commandsCompleteWithAnOutcome : Obligations.CommandsCompleteWithAnOutcome := fun _ _ t h =>
  have hframe := exec_commandFrame h
  ⟨t.busy_eq_false_iff.2 hframe.pend, hframe.done, ErrCode.code_mem_of_raised hframe.raised⟩

/-- The padded block reads only the tail (42_keccak_sponge.md R164, R165). -/
theorem padByte_congr {tail tail' : Nat → Byte} {t : Nat} (h : ∀ j < t, tail j = tail' j) :
    padByte tail t = padByte tail' t := by
  funext j
  by_cases hj : j < t
  · simp [padByte, hj, h j hj]
  · simp [padByte, hj]

/-- Settles O25: the padded blocks are equal; a tail length above 135 leaves the lanes. -/
theorem absorbFinalIgnoresBytesPastTheTail : Obligations.AbsorbFinalIgnoresBytesPastTheTail := by
  intro s s' u u' t hlanes htail h h'
  by_cases ht : t.toNat ≤ 135
  · cases (exec_keccakAbsorbFinal s ht).symm.trans h
    cases (exec_keccakAbsorbFinal s' ht).symm.trans h'
    have hblock : s.finalBlock t.toNat = s'.finalBlock t.toNat := padByte_congr htail
    simp only [State.ended, hlanes, hblock]
  · cases (exec_keccakAbsorbFinal_of_long_tail s ht).symm.trans h
    cases (exec_keccakAbsorbFinal_of_long_tail s' ht).symm.trans h'
    exact hlanes

end Sys2Proof.Machine

namespace Sys2Proof.Machine

/-! What a host read returns (20_memory.md R53, R58) and leaves. -/

/-- Settles O43, by the cases of a read. -/
theorem readsHaveNoSideEffect : Obligations.ReadsHaveNoSideEffect := by
  intro s a n
  rcases s.memRead_cases a n with ⟨hi, he⟩ | ⟨-, hf, he⟩ | ⟨-, -, _, -, ⟨hb, -, he⟩ | ⟨hb, -, he⟩ | ⟨-, he⟩⟩ <;>
    rw [he]
  · exact .inr (.inr ⟨rfl, .inr hi⟩)
  · exact .inr (.inl ⟨rfl, hf⟩)
  · exact .inr (.inr ⟨rfl, .inl hb⟩)
  · exact .inr (.inr ⟨rfl, .inl hb⟩)
  · exact .inl rfl

section LegalRead

variable {s : State} {r : Region} {a n : Nat} (hi : s.inReset = false) (hin : r.contains s.cfg a n = true)
  (hwidth : r.widthOk a n = true)
include hi hin hwidth

/-- While idle every legal read is exact. -/
theorem State.memRead_of_idle (hp : s.pend = none) : s.memRead a n = (s.readExact r a n, s) := by
  simp [State.memRead_of_legal hi (regionAt?_of_contains hin hwidth) hin hwidth, s.busy_eq_false_iff.2 hp]

/-- A read that a pending command does not affect is exact, busy or not. -/
theorem State.memRead_of_not_free (hfree : r.freeWhileBusy = false) (hstatus : r ≠ .status) :
    s.memRead a n = (s.readExact r a n, s) := by
  simp [State.memRead_of_legal hi (regionAt?_of_contains hin hwidth) hin hwidth, hfree, hstatus]

/-- While busy a read of what the command may be writing returns any value. -/
theorem State.memRead_of_free (hb : s.busy = true) (hfree : r.freeWhileBusy = true) :
    s.memRead a n = (s.drawnValue n, s.drew) := by
  simp [State.memRead_of_legal hi (regionAt?_of_contains hin hwidth) hin hwidth, hb, hfree]

end LegalRead

/-- A register is read whole (R55). -/
theorem State.memRead_register_of_not_free {s : State} {r : Region} (hr : r.isRegister = true)
    (hi : s.inReset = false) (hfree : r.freeWhileBusy = false) (hstatus : r ≠ .status) :
    s.memRead r.base 8 = (s.readExact r r.base 8, s) :=
  have haccess := Region.register_access s.cfg hr
  State.memRead_of_not_free hi haccess.2.1 haccess.2.2 hfree hstatus

theorem State.memRead_status_of_busy {s : State} (hi : s.inReset = false) (hb : s.busy = true) :
    s.memRead 0x0008 8 = (s.statusBusy, s.drew) := by
  obtain ⟨hat, hin, hwidth⟩ := Region.register_access s.cfg (r := .status) rfl
  refine (State.memRead_of_legal hi hat hin hwidth).trans ?_
  simp [hb, Region.freeWhileBusy]

/-- Out of reset bit 0 of `STATUS` reads as `BUSY`. -/
theorem State.memRead_status_busy {s : State} (hi : s.inReset = false) :
    (s.memRead 0x0008 8).1.getLsbD 0 = s.busy := by
  cases hb : s.busy with
  | true => rw [State.memRead_status_of_busy hi hb, State.statusBusy, State.statusWith_busy, hb]
  | false =>
    rw [State.memRead_status_of_idle hi (s.busy_eq_false_iff.1 hb), State.statusWord, State.statusWith_busy, hb]

/-! Little-endian values (20_memory.md R52). -/

/-- Above the bytes composed there are zeros. -/
theorem wordByte_leCompose_of_le (b : Nat → Byte) {n k : Nat} (hk : n ≤ k) : wordByte (leCompose b n) k = 0 := by
  apply BitVec.eq_of_getLsbD_eq
  intro i _
  have hout : ¬ 8 * k + i < 8 * n := by omega
  simp [getLsbD_wordByte, getLsbD_leCompose, hout]

/-- Eight bytes of a word are the word (00_scope.md R8). -/
theorem leCompose_wordByte_eight (v : Word) : leCompose (wordByte v) 8 = v := le64_wordByte v

theorem leCompose_one (b : Nat → Byte) : leCompose b 1 = (b 0).setWidth 64 := by
  simp [leCompose]

/-- The window onto `S` lays out each lane lowest byte first (10_state.md R23). -/
theorem laneByte_lane (A : Lanes) (i : Fin 25) {k : Nat} (hk : k < 8) :
    laneByte A (8 * i.val + k) = wordByte A[i] k := by
  have hdiv : (8 * i.val + k) / 8 = i.val := by omega
  have hmod : (8 * i.val + k) % 8 = k := by omega
  have hlt : (8 * i.val + k) / 8 < 25 := by omega
  rw [laneByte_of_lt A hlt, hmod]
  simp only [hdiv, Fin.getElem_fin]

theorem leCompose_laneByte (A : Lanes) (i : Fin 25) : leCompose (fun k => laneByte A (8 * i.val + k)) 8 = A[i] := by
  rw [leCompose_congr (c := wordByte A[i]) fun k hk => laneByte_lane A i hk, leCompose_wordByte_eight]

/-- The lanes' part of R51: naturally aligned bytes of the window. -/
theorem Region.lanes_access (p : Config.Params) {a n : Nat} (hn : n = 1 ∨ n = 2 ∨ n = 4 ∨ n = 8)
    (halign : a % n = 0) (hfrom : 0x0100 ≤ a) (hto : a + n ≤ 0x01C8) :
    Region.lanes.contains p a n = true ∧ Region.lanes.widthOk a n = true :=
  ⟨Region.contains_iff.2 ⟨hfrom, hto⟩, Region.widthOk_iff.2 ⟨hn, halign⟩⟩

/-- Settles O45: eight bytes of the window are a lane, one byte a byte of it. -/
theorem laneWindowIsLittleEndian : Obligations.LaneWindowIsLittleEndian := by
  refine fun s hi hp => ⟨fun i => ?_, fun k hk => ?_⟩
  · have hlt := i.isLt
    obtain ⟨hin, hwidth⟩ := Region.lanes_access s.cfg (a := 0x0100 + 8 * i.val) (n := 8)
      (by decide) (by omega) (by omega) (by omega)
    rw [State.memRead_of_idle hi hin hwidth hp, State.readExact, Nat.add_sub_cancel_left, leCompose_laneByte]
  · obtain ⟨hin, hwidth⟩ := Region.lanes_access s.cfg (a := 0x0100 + k) (n := 1)
      (by decide) (by omega) (by omega) (by omega)
    rw [State.memRead_of_idle hi hin hwidth hp, State.readExact, leCompose_one, Nat.add_sub_cancel_left, Nat.add_zero,
      laneByte_of_lt s.lanes hk]

/-- An access has at most eight bytes (R55). -/
theorem Region.le_eight_of_widthOk {r : Region} {a n : Nat} (h : r.widthOk a n = true) : n ≤ 8 := by
  rw [Region.widthOk_iff] at h
  split at h <;> omega

/-- Byte `k` of what a buffer holds from offset `a` on. -/
def State.bufferByte (s : State) (r : Region) (a k : Nat) : Byte :=
  match r with
  | .lanes => laneByte s.lanes (a - 0x0100 + k)
  | .digest => s.digestByte (a - 0x0300 + k)
  | _ => s.readByte (a + k)

/-- A buffer reads as its bytes (R53). -/
theorem State.readExact_buffer (s : State) {r : Region} (hr : r.isRegister = false) (a n : Nat) :
    s.readExact r a n = leCompose (s.bufferByte r a) n := by
  cases r with
  | lanes | mb | digest | vbuf => rfl
  | _ => cases hr

/-- The registers lie below the buffers (R51). -/
theorem Region.isRegister_eq_false {r : Region} {a n : Nat} (hwidth : r.widthOk a n = true) (ha : 0x0100 ≤ a) :
    r.isRegister = false := by
  by_contra hr
  rw [Bool.not_eq_false] at hr
  rw [Region.widthOk_iff, if_pos hr] at hwidth
  have hbase := hwidth.2
  cases r <;> simp only [Region.base] at hbase <;> first | omega | cases hr

/-- `VBUF` is the last region (R51). -/
theorem Region.eq_vbuf_of_contains {p : Config.Params} {r : Region} {a n : Nat} (hin : r.contains p a n = true)
    (ha : 0x8000 ≤ a) : r = .vbuf := by
  rw [Region.contains_iff] at hin
  cases r <;> simp only [Region.base, Region.size] at hin <;> first | rfl | omega

/-- Settles O52: a register by its own offset, a buffer byte by byte. -/
theorem idleReadsReturnTheState : Obligations.IdleReadsReturnTheState := by
  intro s hi hp
  have hreg : ∀ r : Region, r.isRegister = true → s.memRead r.base 8 = (s.readExact r r.base 8, s) :=
    fun r hr => State.memRead_register_of_idle hr hi hp
  refine ⟨⟨hreg .cmd rfl, hreg .status rfl, hreg .vlen rfl, hreg .voff rfl, hreg .vval rfl, hreg .vcnt rfl,
    hreg .vin rfl, hreg .vsize rfl⟩, fun a n hlegal ha => ?_⟩
  obtain ⟨r, hin, hwidth⟩ := legalAccess_iff.1 hlegal
  have hn := Region.le_eight_of_widthOk hwidth
  have hat : ∀ q : Region, q.base ≤ a → a < q.base + q.size s.cfg → r = q :=
    fun q hfrom hto => (Region.eq_iff_of_contains hin hwidth q).2 ⟨hfrom, hto⟩
  rw [State.memRead_of_idle hi hin hwidth hp, s.readExact_buffer (Region.isRegister_eq_false hwidth ha)]
  have hbyte : ∀ k < n, wordByte (leCompose (s.bufferByte r a) n) k = s.bufferByte r a k :=
    fun k hk => wordByte_leCompose _ hk (by omega)
  refine ⟨rfl, fun k _ hk => wordByte_leCompose_of_le _ hk, fun hto k hk hlane => ?_, fun hfrom hto k hk hD => ?_,
    fun hfrom hto k hk => ?_, fun hfrom k hk => ?_⟩ <;> rw [hbyte k hk]
  · obtain rfl := hat .lanes ha hto
    exact laneByte_of_lt s.lanes hlane
  · obtain rfl := hat .digest hfrom hto
    exact dif_pos hD
  · obtain rfl := hat .mb hfrom hto
    exact congrArg s.readByte (by omega)
  · obtain rfl := Region.eq_vbuf_of_contains hin hfrom
    exact congrArg s.readByte (by omega)

/-! Accesses while a command is pending (20_memory.md R58). -/

theorem State.memWrite_of_busy {s : State} (hi : s.inReset = false) (hb : s.busy = true) (a n : Nat) (v : Word) :
    s.memWrite a n v = s.refuseAccess :=
  State.memWrite_of_refused hi ((s.refused_write_iff a n v).2 (.inl hb))

/-- The offsets whose reads are free while busy are those of `S`, `D`, `VOFF`, `VVAL`, `VCNT` and `VSIZE`. -/
theorem Region.freeWhileBusy_iff {p : Config.Params} {r : Region} {a n : Nat} (hin : r.contains p a n = true)
    (hwidth : r.widthOk a n = true) :
    r.freeWhileBusy = true ↔ (0x0100 ≤ a ∧ a < 0x01C8) ∨ (0x0300 ≤ a ∧ a < 0x0320) ∨ a = 0x18 ∨ a = 0x20 ∨ a = 0x28 ∨
      a = 0x38 := by
  have hlanes : r = .lanes ↔ 0x0100 ≤ a ∧ a < 0x01C8 := Region.eq_iff_of_contains hin hwidth .lanes
  have hdigest : r = .digest ↔ 0x0300 ≤ a ∧ a < 0x0320 := Region.eq_iff_of_contains hin hwidth .digest
  have hvoff : r = .voff ↔ a = 0x18 := Region.eq_register_iff_of_contains hin hwidth rfl
  have hvval : r = .vval ↔ a = 0x20 := Region.eq_register_iff_of_contains hin hwidth rfl
  have hvcnt : r = .vcnt ↔ a = 0x28 := Region.eq_register_iff_of_contains hin hwidth rfl
  have hvsize : r = .vsize ↔ a = 0x38 := Region.eq_register_iff_of_contains hin hwidth rfl
  rw [← hlanes, ← hdigest, ← hvoff, ← hvval, ← hvcnt, ← hvsize]
  cases r <;> simp [Region.freeWhileBusy]

/-- `MB` and `VBUF` read exactly, busy or not. -/
theorem State.memRead_memory {s : State} {a n : Nat} (hi : s.inReset = false) (hlegal : legalAccess s.cfg a n)
    (ha : (0x0200 ≤ a ∧ a < 0x0288) ∨ 0x8000 ≤ a) :
    s.memRead a n = (leCompose (fun k => s.readByte (a + k)) n, s) := by
  obtain ⟨r, hin, hwidth⟩ := legalAccess_iff.1 hlegal
  rcases ha with hmb | hvbuf
  · obtain rfl : r = .mb := (Region.eq_iff_of_contains hin hwidth .mb).2 hmb
    exact State.memRead_of_not_free hi hin hwidth rfl (by decide)
  · obtain rfl := Region.eq_vbuf_of_contains hin hvbuf
    exact State.memRead_of_not_free hi hin hwidth rfl (by decide)

/-- The `STATUS` word while busy, field by field: `DONE` and `ERR` are 0 by the invariant. -/
theorem State.statusBusy_fields {s : State} (hinv : s.Inv) (hb : s.busy = true) :
    s.statusBusy.getLsbD 0 = true ∧ s.statusBusy.getLsbD 1 = false ∧
      s.statusBusy.getLsbD 2 = (Config.drawnRead s.draws).getLsbD 0 ∧ s.statusBusy.getLsbD 3 = s.herr ∧
      s.statusBusy.extractLsb' 8 8 = 0 := by
  obtain ⟨w, hp⟩ := Option.isSome_iff_exists.1 hb
  obtain ⟨-, hpending, -⟩ := hinv.status
  obtain ⟨-, hdone, herr⟩ := hpending w hp
  refine ⟨(s.statusWith_busy _).trans hb, (s.statusWith_done _).trans hdone, s.statusWith_eof _, s.statusWith_herr _,
    (s.statusWith_err _).trans ?_⟩
  rw [herr]
  rfl

/-- Settles O44: no write is taken, and each read by whether the pending command may write what it names. -/
theorem accessesWhileBusy : Obligations.AccessesWhileBusy := by
  intro s hinv hb hi
  refine ⟨State.memWrite_of_busy hi hb, ?_, fun a n hlegal hfree => ?_,
    ⟨State.memRead_register_of_not_free (r := .cmd) rfl hi rfl (by decide),
      State.memRead_register_of_not_free (r := .vlen) rfl hi rfl (by decide),
      State.memRead_register_of_not_free (r := .vin) rfl hi rfl (by decide)⟩,
    fun _ _ => State.memRead_memory hi⟩
  · rw [State.memRead_status_of_busy hi hb]
    exact State.statusBusy_fields hinv hb
  · obtain ⟨r, hin, hwidth⟩ := legalAccess_iff.1 hlegal
    rw [State.memRead_of_free hi hin hwidth hb ((Region.freeWhileBusy_iff hin hwidth).2 hfree)]
    rfl

end Sys2Proof.Machine

namespace Sys2Proof.Machine

/-! What an accepted write leaves (20_memory.md R54), region by region. -/

theorem State.writeExact_vlen {s : State} {r : Region} (hr : r ≠ .vlen) (a n : Nat) (v : Word) :
    (s.writeExact r a n v).vlen = s.vlen := by
  cases r <;> first | rfl | exact absurd rfl hr

theorem State.writeExact_voff {s : State} {r : Region} (hr : r ≠ .voff) (a n : Nat) (v : Word) :
    (s.writeExact r a n v).voff = s.voff := by
  cases r <;> first | rfl | exact absurd rfl hr

theorem State.writeExact_vin {s : State} {r : Region} (hr : r ≠ .vin) (a n : Nat) (v : Word) :
    (s.writeExact r a n v).vin = s.vin := by
  cases r <;> first | rfl | exact absurd rfl hr

/-- A write to `CMD` alone makes a command pending and begins its outcome (10_state.md R40). -/
theorem State.writeExact_command {s : State} {r : Region} (hr : r ≠ .cmd) (a n : Nat) (v : Word) :
    (s.writeExact r a n v).pend = s.pend ∧ (s.writeExact r a n v).cmd = s.cmd ∧
      (s.writeExact r a n v).done = s.done ∧ (s.writeExact r a n v).err = s.err := by
  cases r <;> first | exact ⟨rfl, rfl, rfl, rfl⟩ | exact absurd rfl hr

theorem State.writeExact_lanes {s : State} {r : Region} (hr : r ≠ .lanes) (a n : Nat) (v : Word) :
    (s.writeExact r a n v).lanes = s.lanes := by
  cases r <;> first | rfl | exact absurd rfl hr

/-- The host writes neither the engine's results nor what is not the block's state (R57). -/
theorem State.writeExact_frame (s : State) (r : Region) (a n : Nat) (v : Word) :
    (s.writeExact r a n v).digest = s.digest ∧ (s.writeExact r a n v).vval = s.vval ∧
      (s.writeExact r a n v).vcnt = s.vcnt ∧ (s.writeExact r a n v).vsize = s.vsize ∧
      (s.writeExact r a n v).cfg = s.cfg ∧ (s.writeExact r a n v).inReset = s.inReset := by
  cases r <;> exact ⟨rfl, rfl, rfl, rfl, rfl, rfl⟩

/-- A byte of a buffer outside the bytes written. -/
theorem State.readByte_writeExact_of_outside {s : State} {r : Region} {a n b : Nat} (hb : ¬ (a ≤ b ∧ b < a + n))
    (v : Word) : (s.writeExact r a n v).readByte b = s.readByte b := by
  cases r with
  | mb | vbuf => exact (s.readByte_storeBytes a v n b).trans (if_neg hb)
  | _ => rfl

/-- A byte of the window onto `S` outside the bytes written. -/
theorem State.laneByte_writeExact_of_outside {s : State} {r : Region} {a n k : Nat}
    (hin : r.contains s.cfg a n = true) (hk : k < 200) (hout : ¬ (a ≤ 0x0100 + k ∧ 0x0100 + k < a + n)) (v : Word) :
    laneByte (s.writeExact r a n v).lanes k = laneByte s.lanes k := by
  by_cases hr : r = .lanes
  · subst hr
    obtain ⟨hfrom, hto⟩ : 0x0100 ≤ a ∧ a + n ≤ 0x0100 + 200 := Region.contains_iff.1 hin
    exact (laneByte_setLaneBytes s.lanes v (by omega) hk).trans (if_neg (by omega))
  · rw [State.writeExact_lanes hr]

/-- Settles O42: a write that is not taken changes at most `HERR`, and one that is taken only its region. -/
theorem writeChangesOnlyItsBytes : Obligations.WriteChangesOnlyItsBytes := by
  intro s a n v
  rcases s.memWrite_cases a n v with ⟨-, he⟩ | ⟨-, hf, he⟩ | ⟨-, -, -, r, -, hin, hwidth, -, -, he⟩ <;> rw [he]
  · simp
  · simp [hf, State.readByte]
  · have hreg : ∀ q : Region, q.isRegister = true → a ≠ q.base → r ≠ q :=
      fun q hq ha h => ha ((Region.eq_register_iff_of_contains hin hwidth hq).1 h)
    obtain ⟨hdigest, hvval, hvcnt, hvsize, hcfg, hreset⟩ := s.writeExact_frame r a n v
    exact ⟨fun b hb => State.readByte_writeExact_of_outside hb v,
      fun k hk hout => State.laneByte_writeExact_of_outside hin hk hout v, hdigest, hvval, hvcnt, hvsize, hcfg,
      fun ha => State.writeExact_vlen (hreg .vlen rfl ha) a n v,
      fun ha => State.writeExact_voff (hreg .voff rfl ha) a n v,
      fun ha => State.writeExact_vin (hreg .vin rfl ha) a n v,
      fun ha => State.writeExact_command (hreg .cmd rfl ha) a n v,
      fun _ => s.writeExact_herr r a n v, hreset⟩

/-! A write read back (20_memory.md R52 to R54). -/

/-- What a region the host may write holds after the write. -/
theorem State.readExact_writeExact {s : State} {r : Region} {a n : Nat} (hin : r.contains s.cfg a n = true)
    (hwidth : r.widthOk a n = true) (hro : r.readOnly = false) (v : Word) :
    (s.writeExact r a n v).readExact r a n = leCompose (wordByte v) n := by
  have hregister : r.isRegister = true → v = leCompose (wordByte v) n := fun hr => by
    rw [Region.widthOk_iff, if_pos hr] at hwidth
    rw [hwidth.1, leCompose_wordByte_eight]
  have hmemory : leCompose (fun k => ({ s with mem := s.mem.storeBytes a v n } : State).readByte (a + k)) n =
      leCompose (wordByte v) n := by
    refine leCompose_congr fun k hk => ?_
    rw [State.readByte_storeBytes, if_pos (by omega), Nat.add_sub_cancel_left]
  cases r with
  | cmd | vlen | voff | vin => exact hregister rfl
  | mb | vbuf => exact hmemory
  | lanes =>
    obtain ⟨hfrom, hto⟩ : 0x0100 ≤ a ∧ a + n ≤ 0x0100 + 200 := Region.contains_iff.1 hin
    refine leCompose_congr fun k hk => ?_
    rw [State.writeExact, laneByte_setLaneBytes _ _ (by omega) (by omega), if_pos (by omega), Nat.add_sub_cancel_left]
  | status | vval | vcnt | vsize | digest => cases hro

/-- After a write that is taken while idle, the place written is read exactly: a write to `CMD` makes a command pending,
which `CMD` is not free under (R58). -/
theorem State.memRead_writeExact {s : State} {r : Region} {a n : Nat} (hi : s.inReset = false) (hp : s.pend = none)
    (hin : r.contains s.cfg a n = true) (hwidth : r.widthOk a n = true) (v : Word) :
    (s.writeExact r a n v).memRead a n = ((s.writeExact r a n v).readExact r a n, s.writeExact r a n v) := by
  obtain ⟨-, -, -, -, hcfg, hreset⟩ := s.writeExact_frame r a n v
  have hi' : (s.writeExact r a n v).inReset = false := hreset.trans hi
  rw [← hcfg] at hin
  by_cases hr : r = .cmd
  · subst hr
    exact State.memRead_of_not_free hi' hin hwidth rfl (by decide)
  · exact State.memRead_of_idle hi' hin hwidth ((State.writeExact_command hr a n v).1.trans hp)

/-- Settles O41: the write is taken, and its place is read exactly. -/
theorem readAfterWriteReturnsTheValue : Obligations.ReadAfterWriteReturnsTheValue := by
  intro s a n v hi hf
  rcases s.memWrite_cases a n v with ⟨hi', -⟩ | ⟨-, hf', -⟩ | ⟨-, -, hb, r, -, hin, hwidth, hro, -, he⟩
  · rw [hi] at hi'
    cases hi'
  · rw [hf] at hf'
    cases hf'
  · rw [he, State.memRead_writeExact hi (s.busy_eq_false_iff.1 hb) hin hwidth,
      State.readExact_writeExact hin hwidth hro]

/-- Settles O39: while idle nothing of R59 refuses a write to `CMD`. -/
theorem commandWriteIsAccepted : Obligations.CommandWriteIsAccepted :=
  ⟨fun _ w hi hp => State.memWrite_register_of_idle (r := .cmd) rfl rfl hi hp w, fun s => s.statusWith_busy s.eof⟩

/-! Reset (70_reset_and_hazards.md R230). -/

theorem State.assertReset_holdsResetValues (s : State) : s.assertReset.HoldsResetValues where
  lanes := resetHoldsSpecValues.lanes
  digest := resetHoldsSpecValues.digest
  buffers _ _ := rfl
  registers := resetHoldsSpecValues.registers
  status := resetHoldsSpecValues.status
  pend := rfl

/-- Releasing reset changes its own bit alone. -/
theorem State.HoldsResetValues.releaseReset {s : State} (h : s.HoldsResetValues) : s.releaseReset.HoldsResetValues :=
  ⟨h.lanes, h.digest, h.buffers, h.registers, h.status, h.pend⟩

theorem State.HoldsResetValues.popTurn {s : State} (h : s.HoldsResetValues) : s.popTurn.HoldsResetValues :=
  ⟨h.lanes, h.digest, h.buffers, h.registers, h.status, h.pend⟩

theorem State.memRead_of_inReset {s : State} (hi : s.inReset = true) (a n : Nat) :
    s.memRead a n = (s.drawnValue n, s.drew) := by
  rw [State.memRead, if_pos hi]

theorem State.memWrite_of_inReset {s : State} (hi : s.inReset = true) (a n : Nat) (v : Word) :
    s.memWrite a n v = s := by
  rw [State.memWrite, if_pos hi]

/-- At the platform's turns and the host's a step is their move, which always answers a state. -/
theorem step_of_nextTurn_assertReset {s : State} (h : s.nextTurn = .assertReset) :
    step s = .next s.popTurn.assertReset := by
  rw [step, h]
  rfl

theorem step_of_nextTurn_releaseReset {s : State} (h : s.nextTurn = .releaseReset) :
    step s = .next s.popTurn.releaseReset := by
  rw [step, h]
  rfl

theorem step_of_nextTurn_host {s : State} (h : s.nextTurn = .host) : step s = .next s.popTurn.hostMove := by
  rw [step, h]
  rfl

/-- Settles O6, turn by turn, the accesses in between by the reset input. -/
theorem resetDiscardsAndRestores : Obligations.ResetDiscardsAndRestores :=
  ⟨fun s hturn => ⟨_, step_of_nextTurn_assertReset hturn, s.popTurn.assertReset_holdsResetValues, rfl, rfl⟩,
    fun _ a n v hi => ⟨State.memWrite_of_inReset hi a n v, State.memRead_of_inReset hi a n⟩,
    fun s hturn h => ⟨_, step_of_nextTurn_releaseReset hturn, h.popTurn.releaseReset,
      s.busy_eq_false_iff.2 h.pend, rfl⟩⟩

/-! The host's statements (30_encoding.md R87, R88). -/

theorem State.hostMove_rd {s : State} {addr n off : Nat} {rest : List HostStmt} (h : s.script = .rd addr n :: rest)
    (hoff : portOffset? s.cfg addr = some off) :
    s.hostMove = { (s.memRead off n).2.record (s.memRead off n).1 with script := rest } := by
  simp only [State.hostMove, h, hoff]

theorem State.hostMove_wr {s : State} {addr n off : Nat} {v : Word} {rest : List HostStmt}
    (h : s.script = .wr addr n v :: rest) (hoff : portOffset? s.cfg addr = some off) :
    s.hostMove = { s.memWrite off n v with script := rest } := by
  simp only [State.hostMove, h, hoff]

/-- Out of reset `wait` goes on once `BUSY` is 0. -/
theorem State.hostMove_wait_script {s : State} {rest : List HostStmt} (h : s.script = .wait :: rest)
    (hi : s.inReset = false) : s.hostMove.script = if s.busy then .wait :: rest else rest := by
  simp only [State.hostMove, h, State.memRead_status_busy hi]

/-- Settles O50, statement by statement. -/
theorem hostPerformsItsNextStatement : Obligations.HostPerformsItsNextStatement := by
  rintro s _ rest hturn rfl
  refine ⟨fun addr n off h hoff => ?_, fun addr n v off h hoff => ?_, fun h hi => ?_⟩
  · rw [step_of_nextTurn_host hturn, State.hostMove_rd (s := s.popTurn) h hoff]
    rfl
  · rw [step_of_nextTurn_host hturn, State.hostMove_wr (s := s.popTurn) h hoff]
    rfl
  · refine ⟨_, step_of_nextTurn_host hturn, ?_⟩
    rw [State.hostMove_wait_script (s := s.popTurn) h hi, h]
    rfl

end Sys2Proof.Machine

namespace Sys2Proof.Machine

/-! What a step can do, by whose move is next (60_exceptions.md R200). -/

/-- A step that answers a state is one of the four moves, on the state less the move taken off the list. -/
theorem step_cases {s t : State} (h : step s = .next t) :
    (s.nextTurn = .engine ∧ s.popTurn.engineMove = .next t) ∨ (s.nextTurn = .host ∧ t = s.popTurn.hostMove) ∨
      (s.nextTurn = .assertReset ∧ t = s.popTurn.assertReset) ∨
      (s.nextTurn = .releaseReset ∧ t = s.popTurn.releaseReset) := by
  cases hturn : s.nextTurn with
  | engine => exact .inl ⟨rfl, (step_of_nextTurn_engine hturn).symm.trans h⟩
  | host =>
    cases (step_of_nextTurn_host hturn).symm.trans h
    exact .inr (.inl ⟨rfl, rfl⟩)
  | assertReset =>
    cases (step_of_nextTurn_assertReset hturn).symm.trans h
    exact .inr (.inr (.inl ⟨rfl, rfl⟩))
  | releaseReset =>
    cases (step_of_nextTurn_releaseReset hturn).symm.trans h
    exact .inr (.inr (.inr ⟨rfl, rfl⟩))

/-- The engine's move that answers a state: nothing was pending, the word was illegal, or its command was performed. -/
theorem State.engineMove_eq_next {s t : State} (h : s.engineMove = .next t) :
    (s.pend = none ∧ t = s) ∨ ∃ w, s.pend = some w ∧
      (t = s.ended .illegalCommand ∨ ∃ i, decode w = .ok i ∧ exec i s = .next t) := by
  rcases s.engineMove_cases with ⟨hp, he⟩ | ⟨w, _, hp, -, he⟩ | ⟨w, i, hp, hd, he⟩
  · cases he.symm.trans h
    exact .inl ⟨hp, rfl⟩
  · cases he.symm.trans h
    exact .inr ⟨w, hp, .inl rfl⟩
  · exact .inr ⟨w, hp, .inr ⟨i, hd, he.symm.trans h⟩⟩

/-- `t` is `s` but for `HERR` and the model's own records of the script, the turns and the reads. -/
def State.SameButRecords (s t : State) : Prop :=
  ∃ herr draws script turns results,
    t = { s with herr := herr, draws := draws, script := script, turns := turns, results := results }

theorem State.sameButRecords_refl (s : State) : s.SameButRecords s := ⟨_, _, _, _, _, rfl⟩

theorem State.sameButRecords_popTurn (s : State) : s.SameButRecords s.popTurn := ⟨_, _, _, _, _, rfl⟩

theorem State.sameButRecords_refuseAccess (s : State) : s.SameButRecords s.refuseAccess := ⟨_, _, _, _, _, rfl⟩

/-- A read changes `HERR` and the count of draws at most (20_memory.md R53). -/
theorem State.sameButRecords_memRead (s : State) (a n : Nat) : s.SameButRecords (s.memRead a n).2 := by
  rcases readsHaveNoSideEffect s a n with he | ⟨he, -⟩ | ⟨he, -⟩ <;> rw [he] <;> exact ⟨_, _, _, _, _, rfl⟩

section SameButRecords

variable {s t : State} (h : s.SameButRecords t)
include h

theorem State.SameButRecords.lanes : t.lanes = s.lanes := by
  obtain ⟨_, _, _, _, _, rfl⟩ := h
  rfl

theorem State.SameButRecords.digest : t.digest = s.digest := by
  obtain ⟨_, _, _, _, _, rfl⟩ := h
  rfl

theorem State.SameButRecords.cfg : t.cfg = s.cfg := by
  obtain ⟨_, _, _, _, _, rfl⟩ := h
  rfl

/-- The records may be continued. -/
theorem State.SameButRecords.record (v : Word) (rest : List HostStmt) :
    s.SameButRecords { t.record v with script := rest } := by
  obtain ⟨_, _, _, _, _, rfl⟩ := h
  exact ⟨_, _, _, _, _, rfl⟩

/-- The invariant says nothing of the records. -/
theorem State.SameButRecords.inv (hinv : s.Inv) : t.Inv := by
  obtain ⟨_, _, _, _, _, rfl⟩ := h
  exact ⟨hinv.cfg, hinv.memory, hinv.cursor, hinv.varint, hinv.status⟩

end SameButRecords

/-- But for the records the host's move is the write of its next statement, if that is a write to the block. -/
theorem State.hostMove_sameButRecords (s : State) :
    s.SameButRecords s.hostMove ∨ ∃ addr a n v rest, s.script = .wr addr n v :: rest ∧
      portOffset? s.cfg addr = some a ∧ (s.memWrite a n v).SameButRecords s.hostMove := by
  rcases s.hostMove_cases with he | ⟨rest, he⟩ | ⟨a, n, rest, he⟩ | ⟨addr, a, n, v, rest, hscript, hoff, he⟩ <;> rw [he]
  · exact .inl s.sameButRecords_refl
  · exact .inl ⟨_, _, _, _, _, rfl⟩
  · exact .inl ((s.sameButRecords_memRead a n).record _ rest)
  · exact .inr ⟨addr, a, n, v, rest, hscript, hoff, _, _, _, _, _, rfl⟩

/-! The parameters (10_state.md R20). -/

theorem State.memWrite_cfg (s : State) (a n : Nat) (v : Word) : (s.memWrite a n v).cfg = s.cfg := by
  obtain ⟨-, -, -, -, -, -, hcfg, -⟩ := writeChangesOnlyItsBytes s a n v
  exact hcfg

theorem State.hostMove_cfg (s : State) : s.hostMove.cfg = s.cfg := by
  rcases s.hostMove_sameButRecords with h | ⟨_, a, n, v, _, -, -, h⟩
  · exact h.cfg
  · exact h.cfg.trans (s.memWrite_cfg a n v)

theorem State.engineMove_cfg {s t : State} (h : s.engineMove = .next t) : t.cfg = s.cfg := by
  rcases State.engineMove_eq_next h with ⟨-, rfl⟩ | ⟨_, -, rfl | ⟨_, -, he⟩⟩
  · rfl
  · rfl
  · exact (exec_commandFrame he).cfg

/-- Settles O5, move by move. -/
theorem stepKeepsConfiguration : Obligations.StepKeepsConfiguration := by
  intro s t h
  rcases step_cases h with ⟨-, he⟩ | ⟨-, rfl⟩ | ⟨-, rfl⟩ | ⟨-, rfl⟩
  · exact State.engineMove_cfg (s := s.popTurn) he
  · exact s.popTurn.hostMove_cfg
  · rfl
  · rfl

/-! The invariant is kept by each move. -/

/-- Between commands `STATUS` needs only a code that the block raises. -/
theorem State.statusInv_of_idle {s : State} (herr : s.err.raised = true) (hp : s.pend = none) : s.statusInv := by
  refine ⟨herr, fun w hw => ?_, fun _ => hp⟩
  rw [hp] at hw
  cases hw

/-- Settles O2: the memory is empty, the registers are 0, nothing is pending. -/
theorem resetMeetsInvariant : Obligations.ResetMeetsInvariant where
  cfg := by decide
  memory := ⟨reset_memory_wf, fun _ hc => absurd hc List.not_mem_nil⟩
  cursor := ⟨by decide, by decide⟩
  varint := ⟨by decide, by decide, by decide⟩
  status := State.statusInv_of_idle rfl rfl

theorem State.Inv.assertReset {s : State} (h : s.Inv) : s.assertReset.Inv where
  cfg := h.cfg
  memory := ⟨reset_memory_wf, fun _ hc => absurd hc List.not_mem_nil⟩
  cursor := ⟨le_rfl, Nat.zero_le _⟩
  varint := resetMeetsInvariant.varint
  status := State.statusInv_of_idle rfl rfl

theorem State.Inv.releaseReset {s : State} (h : s.Inv) : s.releaseReset.Inv := by
  obtain ⟨hraised, hpending, -⟩ := h.status
  exact ⟨h.cfg, h.memory, h.cursor, h.varint, hraised, hpending, fun hi => by cases hi⟩

theorem State.Inv.ended {s : State} (h : s.Inv) {c : ErrCode} (hc : c.raised = true) : (s.ended c).Inv :=
  ⟨h.cfg, h.memory, h.cursor, h.varint, State.statusInv_of_idle hc rfl⟩

/-- The bytes of a region of memory are bytes of `MB` or `VBUF` (20_memory.md R51). -/
theorem memoryOffset_of_contains {p : Config.Params} {r : Region} (hr : r = .mb ∨ r = .vbuf) {a n b : Nat}
    (hin : r.contains p a n = true) (hfrom : a ≤ b) (hto : b < a + n) : memoryOffset p b := by
  rw [Region.contains_iff] at hin
  rcases hr with rfl | rfl <;> simp only [Region.base, Region.size] at hin
  · exact .inl ⟨by omega, by omega⟩
  · exact .inr ⟨by omega, by omega⟩

/-- A write to `MB` or `VBUF` keeps the memory canonical and inside the buffers. -/
theorem State.memoryInv.storeBytes {s : State} (h : s.memoryInv) {r : Region} (hr : r = .mb ∨ r = .vbuf) {a n : Nat}
    (hin : r.contains s.cfg a n = true) (v : Word) : ({ s with mem := s.mem.storeBytes a v n } : State).memoryInv := by
  obtain ⟨hwf, hinside⟩ := h
  refine ⟨Memory.storeBytes_wf hwf a v n, fun c hc => ?_⟩
  rcases Memory.mem_storeBytes hc with ⟨hfrom, hto⟩ | hc
  · exact memoryOffset_of_contains hr hin hfrom hto
  · exact hinside c hc

/-- A write to `VLEN` that R59 does not refuse. -/
theorem State.cursorInv_of_vlen {s : State} {v : Word} (h : s.cursorRefused .vlen (.write v) = false) :
    ({ s with vlen := v } : State).cursorInv := by
  simp only [State.cursorRefused, Bool.or_eq_false_iff, decide_eq_false_iff_not, Nat.not_lt] at h
  exact ⟨h.2, h.1⟩

/-- A write to `VOFF` that R59 does not refuse. -/
theorem State.cursorInv_of_voff {s : State} (hs : s.cursorInv) {v : Word}
    (h : s.cursorRefused .voff (.write v) = false) : ({ s with voff := v } : State).cursorInv := by
  simp only [State.cursorRefused, decide_eq_false_iff_not, Nat.not_lt] at h
  exact ⟨h, hs.2⟩

/-- An accepted command begins its outcome (10_state.md R40). -/
theorem State.statusInv_acceptCommand {s : State} (hi : s.inReset = false) (w : Word) :
    (s.acceptCommand w).statusInv := by
  refine ⟨rfl, fun x hx => ⟨Option.some.inj hx, rfl, rfl⟩, fun hr => ?_⟩
  rw [State.acceptCommand_inReset, hi] at hr
  cases hr

theorem State.Inv.writeExact {s : State} (h : s.Inv) {r : Region} {a n : Nat} {v : Word} (hi : s.inReset = false)
    (hin : r.contains s.cfg a n = true) (hcursor : s.cursorRefused r (.write v) = false) :
    (s.writeExact r a n v).Inv := by
  obtain ⟨hcfg, hmemory, hcur, hvarint, hstatus⟩ := h
  cases r with
  | cmd => exact ⟨hcfg, hmemory, hcur, hvarint, State.statusInv_acceptCommand hi v⟩
  | vlen => exact ⟨hcfg, hmemory, State.cursorInv_of_vlen hcursor, hvarint, hstatus⟩
  | voff => exact ⟨hcfg, hmemory, State.cursorInv_of_voff hcur hcursor, hvarint, hstatus⟩
  | mb => exact ⟨hcfg, hmemory.storeBytes (.inl rfl) hin v, hcur, hvarint, hstatus⟩
  | vbuf => exact ⟨hcfg, hmemory.storeBytes (.inr rfl) hin v, hcur, hvarint, hstatus⟩
  | vin | lanes | status | vval | vcnt | vsize | digest => exact ⟨hcfg, hmemory, hcur, hvarint, hstatus⟩

theorem State.Inv.memWrite {s : State} (h : s.Inv) (a n : Nat) (v : Word) : (s.memWrite a n v).Inv := by
  rcases s.memWrite_cases a n v with ⟨-, he⟩ | ⟨-, -, he⟩ | ⟨hi, -, -, r, -, hin, -, -, hcursor, he⟩ <;> rw [he]
  · exact h
  · exact s.sameButRecords_refuseAccess.inv h
  · exact h.writeExact hi hin hcursor

theorem State.Inv.hostMove {s : State} (h : s.Inv) : s.hostMove.Inv := by
  rcases s.hostMove_sameButRecords with hsame | ⟨_, a, n, v, _, -, -, hsame⟩
  · exact hsame.inv h
  · exact hsame.inv (h.memWrite a n v)

/-- A decode leaves the cursor inside the input and its results in range (40_varint.md R103, R104). -/
theorem GroupsEndAt.unpacked_cursorInv {s : State} {k : Nat} (h : s.cursorInv)
    (hk : GroupsEndAt s.vbufByte s.voff.toNat s.vlen.toNat k) : (s.unpacked k).cursorInv := by
  obtain ⟨-, -, hoff⟩ := hk.unpacked_toNat
  exact ⟨hoff.trans_le hk.within, h.2⟩

theorem GroupsEndAt.unpacked_varintInv {s : State} {k : Nat} (h : s.varintInv)
    (hk : GroupsEndAt s.vbufByte s.voff.toNat s.vlen.toNat k) : (s.unpacked k).varintInv := by
  obtain ⟨hval, hcnt, -⟩ := hk.unpacked_toNat
  obtain ⟨-, -, hsize⟩ := h
  exact ⟨hval.trans_lt (groupSum_lt hk.le_nine _ _), hcnt.trans_le hk.le_nine, hsize⟩

/-- A packed size fits `VSIZE` (40_varint.md R109). -/
theorem packedSize_le_eight (m : Word) : packedSize m ≤ 8 := by
  rw [packedSize_eq_min]
  exact Nat.min_le_right _ _

/-- The varint registers in range after a command: only the two varint commands write them. -/
theorem exec_keeps_cursorInv_varintInv {i : Instr} {s t : State} (h : s.Inv) (he : exec i s = .next t) :
    t.cursorInv ∧ t.varintInv := by
  cases i with
  | varintUnpack =>
    rcases exec_varintUnpack_eq_next he with ⟨k, hk, rfl⟩ | rfl
    · exact ⟨hk.unpacked_cursorInv h.cursor, hk.unpacked_varintInv h.varint⟩
    · exact ⟨h.cursor, h.varint⟩
  | varintSize =>
    cases (exec_varintSize s).symm.trans he
    obtain ⟨hval, hcnt, -⟩ := h.varint
    have hsize := packedSize_le_eight s.vin
    refine ⟨h.cursor, hval, hcnt, ?_⟩
    simp only [State.ended, BitVec.toNat_ofNat]
    omega
  | nop | keccakInit | keccakPerm | keccakAbsorb | keccakAbsorbFinal _ | keccakSqueeze =>
    have hframe := exec_commandFrame he
    obtain ⟨hval, hcnt, hoff⟩ := hframe.decoded (by simp)
    rw [State.cursorInv, State.varintInv, hval, hcnt, hoff, hframe.vlen, hframe.cfg, hframe.vsize (by simp)]
    exact ⟨h.cursor, h.varint⟩

theorem State.Inv.exec {i : Instr} {s t : State} (h : s.Inv) (he : exec i s = .next t) : t.Inv := by
  have hframe := exec_commandFrame he
  obtain ⟨hcursor, hvarint⟩ := exec_keeps_cursorInv_varintInv h he
  refine ⟨?_, ?_, hcursor, hvarint, State.statusInv_of_idle hframe.raised hframe.pend⟩
  · rw [hframe.cfg]
    exact h.cfg
  · rw [State.memoryInv, hframe.mem, hframe.cfg]
    exact h.memory

theorem State.Inv.engineMove {s t : State} (h : s.Inv) (he : s.engineMove = .next t) : t.Inv := by
  rcases State.engineMove_eq_next he with ⟨-, rfl⟩ | ⟨_, -, rfl | ⟨_, -, hexec⟩⟩
  · exact h
  · exact h.ended rfl
  · exact h.exec hexec

/-- Settles O3, move by move, on the state less the move taken off the list. -/
theorem stepKeepsInvariant : Obligations.StepKeepsInvariant := by
  intro s t hs h
  have hpop : s.popTurn.Inv := s.sameButRecords_popTurn.inv hs
  rcases step_cases h with ⟨-, he⟩ | ⟨-, rfl⟩ | ⟨-, rfl⟩ | ⟨-, rfl⟩
  · exact hpop.engineMove he
  · exact hpop.hostMove
  · exact hpop.assertReset
  · exact hpop.releaseReset

/-! No step stops, and the engine's completes what is pending (60_exceptions.md R200, R208). -/

/-- With `VLEN` inside `VBUF` every command answers a next state. -/
theorem exists_exec_eq_next (i : Instr) {s : State} (hlen : s.vlen.toNat ≤ s.cfg.vbufBytes) :
    ∃ t, exec i s = .next t := by
  cases i with
  | keccakAbsorbFinal len =>
    by_cases ht : len.toNat ≤ 135
    · exact ⟨_, exec_keccakAbsorbFinal s ht⟩
    · exact ⟨_, exec_keccakAbsorbFinal_of_long_tail s ht⟩
  | varintUnpack =>
    rcases varintDecode_cases s.vbufByte s.voff.toNat s.vlen.toNat with ⟨k, hk, -⟩ | ⟨-, hdec⟩
    · exact ⟨_, exec_varintUnpack_of_groupsEndAt hlen hk⟩
    · exact ⟨_, exec_varintUnpack_of_malformed hlen hdec⟩
  | nop | keccakInit | keccakPerm | keccakAbsorb | keccakSqueeze | varintSize => exact ⟨_, rfl⟩

theorem State.Inv.exists_engineMove_eq_next {s : State} (h : s.Inv) : ∃ t, s.engineMove = .next t := by
  rcases s.engineMove_cases with ⟨-, he⟩ | ⟨_, _, -, -, he⟩ | ⟨_, i, -, -, he⟩
  · exact ⟨_, he⟩
  · exact ⟨_, he⟩
  · rw [he]
    exact exists_exec_eq_next i h.cursor.2

/-- Settles O4: of the four moves only the engine's could stop, and the invariant keeps `VLEN` inside `VBUF`. -/
theorem stepNeverStops : Obligations.StepNeverStops := by
  intro s hs
  cases hturn : s.nextTurn with
  | engine =>
    rw [step_of_nextTurn_engine hturn]
    exact (s.sameButRecords_popTurn.inv hs).exists_engineMove_eq_next
  | host => exact ⟨_, step_of_nextTurn_host hturn⟩
  | assertReset => exact ⟨_, step_of_nextTurn_assertReset hturn⟩
  | releaseReset => exact ⟨_, step_of_nextTurn_releaseReset hturn⟩

/-- With a command pending the engine's move ends it, whatever its word. -/
theorem State.engineMove_completes {s t : State} {w : Word} (hp : s.pend = some w) (h : s.engineMove = .next t) :
    t.pend = none ∧ t.done = true ∧ t.cmd = s.cmd := by
  rcases State.engineMove_eq_next h with ⟨hnone, -⟩ | ⟨_, -, rfl | ⟨_, -, he⟩⟩
  · rw [hp] at hnone
    cases hnone
  · exact ⟨rfl, rfl, rfl⟩
  · have hframe := exec_commandFrame he
    exact ⟨hframe.pend, hframe.done, hframe.cmd⟩

theorem State.nextTurn_of_pending {s : State} {w : Word} (hturns : s.turns = []) (hp : s.pend = some w) :
    s.nextTurn = .engine := by
  simp [State.nextTurn, hturns, State.busy, hp]

/-- Settles O51: the engine moves next, and the invariant says that `CMD` holds the pending word. -/
theorem pendingCommandCompletes : Obligations.PendingCommandCompletes := by
  intro s w hs hturns hp
  obtain ⟨t, ht⟩ := stepNeverStops s hs
  have hmove := (step_of_nextTurn_engine (State.nextTurn_of_pending hturns hp)).symm.trans ht
  obtain ⟨hpend, hdone, hcmd⟩ := State.engineMove_completes (s := s.popTurn) hp hmove
  obtain ⟨-, hpending, -⟩ := hs.status
  exact ⟨t, ht, t.busy_eq_false_iff.2 hpend, hdone, hcmd.trans (hpending w hp).1⟩

/-! Who writes the lanes and the digest (10_state.md R20, R25). -/

/-- A host write changes a lane only while idle and inside the window onto `S`. -/
theorem State.window_of_memWrite_changes_lanes {s : State} {a n : Nat} {v : Word}
    (h : (s.memWrite a n v).lanes ≠ s.lanes) : s.busy = false ∧ 0x0100 ≤ a ∧ a < 0x01C8 := by
  rcases s.memWrite_cases a n v with ⟨-, he⟩ | ⟨-, -, he⟩ | ⟨-, -, hb, r, hr, -, -, -, -, he⟩ <;> rw [he] at h
  · exact absurd rfl h
  · exact absurd rfl h
  · obtain rfl : r = .lanes := by
      by_contra hne
      exact h (State.writeExact_lanes hne a n v)
    exact ⟨hb, regionAt?_eq_some.1 hr⟩

theorem State.memWrite_digest (s : State) (a n : Nat) (v : Word) : (s.memWrite a n v).digest = s.digest := by
  obtain ⟨-, -, hdigest, -⟩ := writeChangesOnlyItsBytes s a n v
  exact hdigest

/-- The host changes a lane only by a write into the window onto `S` while idle. -/
theorem State.statement_of_hostMove_changes_lanes {s : State} (h : s.hostMove.lanes ≠ s.lanes) :
    s.busy = false ∧ ∃ a n v rest off, s.script = .wr a n v :: rest ∧ portOffset? s.cfg a = some off ∧
      0x0100 ≤ off ∧ off < 0x01C8 := by
  rcases s.hostMove_sameButRecords with hsame | ⟨addr, off, n, v, rest, hscript, hoff, hsame⟩
  · exact absurd hsame.lanes h
  · rw [hsame.lanes] at h
    obtain ⟨hb, hwindow⟩ := State.window_of_memWrite_changes_lanes h
    exact ⟨hb, addr, n, v, rest, off, hscript, hoff, hwindow⟩

theorem State.hostMove_digest (s : State) : s.hostMove.digest = s.digest := by
  rcases s.hostMove_sameButRecords with hsame | ⟨_, a, n, v, _, -, -, hsame⟩
  · exact hsame.digest
  · exact hsame.digest.trans (s.memWrite_digest a n v)

/-- The engine changes a lane only by a Keccak command other than the squeeze. -/
theorem State.command_of_engineMove_changes_lanes {s t : State} (h : s.engineMove = .next t)
    (hne : t.lanes ≠ s.lanes) :
    ∃ w i, s.pend = some w ∧ decode w = .ok i ∧
      (i = .keccakInit ∨ i = .keccakPerm ∨ i = .keccakAbsorb ∨ ∃ len, i = .keccakAbsorbFinal len) := by
  rcases State.engineMove_eq_next h with ⟨-, rfl⟩ | ⟨w, hp, rfl | ⟨i, hd, he⟩⟩
  · exact absurd rfl hne
  · exact absurd rfl hne
  · refine ⟨w, i, hp, hd, ?_⟩
    by_contra hother
    push Not at hother
    obtain ⟨hinit, hperm, habsorb, hfinal⟩ := hother
    exact hne ((exec_commandFrame he).lanes (by simp [hinit, hperm, habsorb]) hfinal)

/-- The engine changes the digest only by the word of KECCAK_SQUEEZE. -/
theorem State.pend_of_engineMove_changes_digest {s t : State} (h : s.engineMove = .next t)
    (hne : t.digest ≠ s.digest) : s.pend = some (encode .keccakSqueeze) := by
  rcases State.engineMove_eq_next h with ⟨-, rfl⟩ | ⟨w, hp, rfl | ⟨i, hd, he⟩⟩
  · exact absurd rfl hne
  · exact absurd rfl hne
  · obtain rfl : i = .keccakSqueeze := by
      by_contra hother
      exact hne ((exec_commandFrame he).digest hother)
    rw [hp, encode_of_decode hd]

/-- Settles O49, move by move. -/
theorem lanesAndDigestChangeOnlyByTheirWriters : Obligations.LanesAndDigestChangeOnlyByTheirWriters := by
  intro s t h
  rcases step_cases h with ⟨hturn, he⟩ | ⟨hturn, rfl⟩ | ⟨hturn, rfl⟩ | ⟨-, rfl⟩
  · exact ⟨fun hne => .inr (.inr ⟨hturn, State.command_of_engineMove_changes_lanes (s := s.popTurn) he hne⟩),
      fun hne => .inr ⟨hturn, State.pend_of_engineMove_changes_digest (s := s.popTurn) he hne⟩⟩
  · exact ⟨fun hne => .inr (.inl ⟨hturn, State.statement_of_hostMove_changes_lanes (s := s.popTurn) hne⟩),
      fun hne => absurd s.popTurn.hostMove_digest hne⟩
  · exact ⟨fun _ => .inl hturn, fun _ => .inl hturn⟩
  · exact ⟨fun hne => absurd rfl hne, fun hne => absurd rfl hne⟩

end Sys2Proof.Machine
